-- ==== Sys2Proof/Word.lean ====
section
/-! DEFINITION. The two kinds of datum the block handles: a byte (a channel or a code unit) and a pixel.
00_scope R5, R7: all values are unsigned, bit 0 is the least significant. -/

namespace Sys2Proof

/-- An 8-bit unsigned value: a channel (CHW = 8) or a message code unit (CUW = 8), 00_scope R5. -/
abbrev Byte := BitVec 8

/-- A pixel: three independent 8-bit channels in the order R, G, B (10_state R24, 30_encoding R70).
There is no packed word and no alpha (92 D20). -/
structure Pixel where
  r : Byte
  g : Byte
  b : Byte
deriving DecidableEq, Repr

end Sys2Proof
end

