-- ==== Sys2Proof/Config.lean ====
section
/-! DEFINITION. What one implementation fixes and the spec leaves OPEN: the index width IDXW (00_scope R6, 92 D4)
and the bus addresses REGMAP (10_state R23, 92 D8). No step writes either. The model needs no free value: no rule
leaves the result of a step undefined while the machine goes on. -/

namespace Sys2Proof

/-- The registers CR0 to CR6 that the host reaches by name (10_state R23). -/
inductive RegName where
  | cmd      -- CR0
  | status   -- CR1
  | i        -- CR2
  | olen     -- CR3
  | w        -- CR4
  | h        -- CR5
  | len      -- CR6
deriving DecidableEq, Repr

/-- REGMAP: a bus address for each register of 10_state R23. -/
structure RegMap where
  cmd    : Nat
  status : Nat
  i      : Nat
  olen   : Nat
  w      : Nat
  h      : Nat
  len    : Nat
deriving DecidableEq, Repr

/-- The address REGMAP gives a register. -/
def RegMap.addr (rm : RegMap) : RegName → Nat
  | .cmd => rm.cmd
  | .status => rm.status
  | .i => rm.i
  | .olen => rm.olen
  | .w => rm.w
  | .h => rm.h
  | .len => rm.len

/-- "any injective map" (92, open parameters): the seven addresses are distinct. -/
abbrev RegMap.injective (rm : RegMap) : Prop :=
  [rm.cmd, rm.status, rm.i, rm.olen, rm.w, rm.h, rm.len].Nodup

/-- The open parameters of one implementation. `idxw = none` is the unbounded index width that 92's table of
open parameters allows; `some k` is a finite implementation of `k` index bits. -/
structure Config where
  idxw   : Option Nat
  regmap : RegMap
deriving DecidableEq, Repr

/-- Constraints on the open parameters (92): IDXW is positive, REGMAP injective. -/
abbrev Config.wf (c : Config) : Prop :=
  c.idxw ≠ some 0 ∧ c.regmap.injective

/-- DESIGN CHOICE (log 9, log 10): unbounded indices, and the labels CR0 to CR6 as addresses. -/
def Config.initial : Config :=
  { idxw := none
    regmap := { cmd := 0, status := 1, i := 2, olen := 3, w := 4, h := 5, len := 6 } }

end Sys2Proof
end

