-- ==== Sys2Proof/Syntax.lean ====
section
/-! DEFINITION. The instruction type: one constructor per row of spec/opcode_table.json, and the place (port or
register) at which a word of each row stands (20_memory R40, 10_state R23). -/

namespace Sys2Proof

/-- Where a word stands. The spec reaches registers "by name, not through any of" the address spaces
(10_state R31) and gives the grid port as three separate lanes (20_memory R40), so the place of a word is part of
what it is: the same 8 bits are a payload byte on the message port and a channel on a lane (log 3). -/
inductive Port where
  | cmd      -- register CMD, 2 bits, written by the host (10_state R19)
  | status   -- register STATUS, 4 bits, read by the host (10_state R20)
  | msg      -- message port (20_memory R40)
  | laneR    -- grid port, R lane
  | laneG    -- grid port, G lane
  | laneB    -- grid port, B lane
  | out      -- output port
deriving DecidableEq, Repr

/-- A word at a port, its bits zero-extended to a byte. -/
structure PortWord where
  port : Port
  bits : Byte
deriving DecidableEq, Repr

/-- The rows of spec/opcode_table.json. The four command words have no operands (30_encoding R75). The data-format
and status rows carry the fields of their format (30_encoding R70 to R72, 10_state R20). -/
inductive Instr where
  /-- ENCODE, CMD = 0b01 (41_encoder R111). -/
  | cmdEncode
  /-- DECODE, CMD = 0b10 (42_decoder R141). -/
  | cmdDecode
  /-- ILLEGAL_NEITHER, CMD = 0b00 (60_exceptions R173). -/
  | cmdNeither
  /-- ILLEGAL_BOTH, CMD = 0b11 (60_exceptions R173). -/
  | cmdBoth
  /-- DATA.PAYLOAD_BYTE, `ABCddddd`: stored field 7:5, dropped field 4:0 (30_encoding R71). -/
  | dataPayloadByte (stored : BitVec 3) (dropped : BitVec 5)
  /-- DATA.CHANNEL_R, `rrrrrrrA`: cover bits 7:1, carrier bit 0 (30_encoding R70). -/
  | dataChannelR (cover : BitVec 7) (carrier : BitVec 1)
  /-- DATA.CHANNEL_G, `gggggggB` (30_encoding R70). -/
  | dataChannelG (cover : BitVec 7) (carrier : BitVec 1)
  /-- DATA.CHANNEL_B, `bbbbbbbC` (30_encoding R70). -/
  | dataChannelB (cover : BitVec 7) (carrier : BitVec 1)
  /-- DATA.RECONSTRUCTED_BYTE, `ABC00000` (30_encoding R72). -/
  | dataReconstructed (stored : BitVec 3)
  /-- STATUS, `EEDB`: ERR 3:2, DONE 1, BUSY 0 (10_state R20). -/
  | statusWord (err : BitVec 2) (done : BitVec 1) (busy : BitVec 1)
deriving DecidableEq, Repr

end Sys2Proof
end

