-- ==== Sys2Proof/WellFormed.lean ====
section
/-! DEFINITION. Which instructions are well-formed. Every command word and every data byte is (30_encoding R76,
R77); a STATUS word is when it is one of the six values R20 calls legal. -/

namespace Sys2Proof

/-- "`BUSY` and `DONE` are never both 1" (10_state R17). -/
def statusFlagsExclusive (done busy : BitVec 1) : Bool := !(done == 1#1 && busy == 1#1)

/-- An error code stands only beside DONE: "`ERR != 0` implies `STATE == HALT`" (10_state R29 item 5, R20). -/
def statusErrOnlyWhenDone (err : BitVec 2) (done : BitVec 1) : Bool := err == 0#2 || done == 1#1

/-- Well-formedness, per constructor. -/
def WellFormed : Instr → Bool
  | .cmdEncode => true
  | .cmdDecode => true
  | .cmdNeither => true
  | .cmdBoth => true
  | .dataPayloadByte _ _ => true
  | .dataChannelR _ _ => true
  | .dataChannelG _ _ => true
  | .dataChannelB _ _ => true
  | .dataReconstructed _ => true
  | .statusWord err done busy => statusFlagsExclusive done busy && statusErrOnlyWhenDone err done

end Sys2Proof
end

