-- ==== Sys2Proof/Decode.lean ====
section
/-! DEFINITION. The decoder: from a word at a port to an instruction, total on every byte at every port, rejecting by
name; and the encoder, written from the same formats (30_encoding R70 to R72, R75, R76; 10_state R20). -/

namespace Sys2Proof

/-- Why a word is no instruction. -/
inductive Reject where
  /-- CMD is 2 bits wide (30_encoding R75): a bit above bit 1 is set. -/
  | cmdTooWide
  /-- STATUS is 4 bits wide (10_state R20): a bit above bit 3 is set. -/
  | statusTooWide
  /-- A STATUS value that is not one of R20's legal values. -/
  | statusIllegal
  /-- "any byte with a non-zero bit in positions 4:0" is never a reconstructed byte (30_encoding R77). -/
  | notReconstructed
deriving DecidableEq, Repr

/-- The CMD word: bit 0 is ENC_REQ, bit 1 is DEC_REQ (30_encoding R75, R76). -/
def decodeCmd (bits : Byte) : Except Reject Instr :=
  if bits.extractLsb' 2 6 = 0#6 then
    match bits.getLsbD 1, bits.getLsbD 0 with
    | false, true => .ok .cmdEncode
    | true, false => .ok .cmdDecode
    | false, false => .ok .cmdNeither
    | true, true => .ok .cmdBoth
  else .error .cmdTooWide

/-- The STATUS word: ERR 3:2, DONE 1, BUSY 0 (10_state R20). -/
def decodeStatus (bits : Byte) : Except Reject Instr :=
  if bits.extractLsb' 4 4 = 0#4 then
    let i := Instr.statusWord (bits.extractLsb' 2 2) (bits.extractLsb' 1 1) (bits.extractLsb' 0 1)
    if WellFormed i then .ok i else .error .statusIllegal
  else .error .statusTooWide

/-- The reconstructed byte: `ABC00000` (30_encoding R72). -/
def decodeReconstructed (bits : Byte) : Except Reject Instr :=
  if bits.extractLsb' 0 5 = 0#5 then .ok (.dataReconstructed (bits.extractLsb' 5 3))
  else .error .notReconstructed

/-- The instruction a word at a port stands for. -/
def decode (pw : PortWord) : Except Reject Instr :=
  match pw.port with
  | .cmd => decodeCmd pw.bits
  | .status => decodeStatus pw.bits
  | .msg => .ok (.dataPayloadByte (pw.bits.extractLsb' 5 3) (pw.bits.extractLsb' 0 5))
  | .laneR => .ok (.dataChannelR (pw.bits.extractLsb' 1 7) (pw.bits.extractLsb' 0 1))
  | .laneG => .ok (.dataChannelG (pw.bits.extractLsb' 1 7) (pw.bits.extractLsb' 0 1))
  | .laneB => .ok (.dataChannelB (pw.bits.extractLsb' 1 7) (pw.bits.extractLsb' 0 1))
  | .out => decodeReconstructed pw.bits

/-- `ABCddddd` (30_encoding R71); with a zero dropped field, `ABC00000` (R72). -/
def payloadBits (stored : BitVec 3) (dropped : BitVec 5) : Byte := stored ++ dropped

/-- `rrrrrrrA` (30_encoding R70). -/
def channelBits (cover : BitVec 7) (carrier : BitVec 1) : Byte := cover ++ carrier

/-- `EEDB` zero-extended (10_state R20). -/
def statusBits (err : BitVec 2) (done busy : BitVec 1) : Byte := 0#4 ++ (err ++ (done ++ busy))

/-- The word of an instruction, and the port it stands at. -/
def encode : Instr → PortWord
  | .cmdEncode => { port := .cmd, bits := 0b01#8 }
  | .cmdDecode => { port := .cmd, bits := 0b10#8 }
  | .cmdNeither => { port := .cmd, bits := 0b00#8 }
  | .cmdBoth => { port := .cmd, bits := 0b11#8 }
  | .dataPayloadByte stored dropped => { port := .msg, bits := payloadBits stored dropped }
  | .dataChannelR cover carrier => { port := .laneR, bits := channelBits cover carrier }
  | .dataChannelG cover carrier => { port := .laneG, bits := channelBits cover carrier }
  | .dataChannelB cover carrier => { port := .laneB, bits := channelBits cover carrier }
  | .dataReconstructed stored => { port := .out, bits := payloadBits stored 0#5 }
  | .statusWord err done busy => { port := .status, bits := statusBits err done busy }

/-- The port at which a bare word of the opcode table is read, where nothing names one. DESIGN CHOICE (log 3): the
narrowest format that admits the word: CMD for the four 2-bit words, then STATUS for its remaining legal 4-bit words,
then the output port for the non-zero reconstructed bytes, then the message port. A lane is never inferred from bits:
its bytes have no shape of their own. -/
def tablePort (w : Nat) : Port :=
  if w < 4 then .cmd
  else if w = 6 ∨ w = 10 ∨ w = 14 then .status
  else if w % 32 = 0 then .out
  else .msg

/-- A bare word of the opcode table at the port it is read at; no row is wider than 8 bits. -/
def tableWord (nbits w : Nat) : Option PortWord :=
  if nbits ≤ 8 ∧ w < 2 ^ nbits then some { port := tablePort w, bits := BitVec.ofNat 8 w } else none

/-- The host's entry: the instruction the decoder reads from a word numbered as the opcode table numbers it. -/
def decodeTableWord (nbits w : Nat) : Option Instr :=
  match tableWord nbits w with
  | some pw => (decode pw).toOption
  | none => none

end Sys2Proof
end

