-- ==== Sys2Proof/Machine/State.lean ====
section
/-! DEFINITION. The machine's state as plain data (10_state R29: the tuple, the launch arguments, the scratch
registers), the reasons it can stop, and the state after reset (10_state R28). -/

namespace Sys2Proof.Machine

/-- STATE, the sequencer state: "an enumerated type with no architected bit encoding" (10_state R16). -/
inductive Seq where
  | idle   -- reset state
  | enc    -- an ENCODE operation is in progress
  | dec    -- a DECODE operation is in progress
  | halt   -- the last operation has ended
deriving DecidableEq, Repr

/-- The value of ERR by its name (60_exceptions R174); `ErrCode.code` gives the 2 bits. -/
inductive ErrCode where
  | none
  | capacity
  | unterminated
  | usage
deriving DecidableEq, Repr

/-- A space held as (key, value) pairs. Canonical form: keys strictly rising, no entry equal to what an unlisted
key reads as (`Memory.wf` in Ops.lean). A byte space is a list of `Host.Cell`. -/
abbrev Memory (α : Type) := List (Nat × α)

/-- A move of the host, as a line of a host script (30_encoding R80) or one of the accesses that 10_state R23 to R26
and 70_reset R200 give the host. -/
inductive HostMove where
  /-- A word at a port of the host: a CMD write or a STATUS read. At a data port it is refused: the host cannot write
  the registers behind those (10_state R13). -/
  | word (pw : PortWord)
  /-- Read a register by name (10_state R23). -/
  | readReg (r : RegName)
  /-- Write a register by name (10_state R19, R21, R23). -/
  | writeReg (r : RegName) (v : Nat)
  /-- Read the register at a bus address (REGMAP, 10_state R23). -/
  | busRead (addr : Nat)
  /-- Write the register at a bus address (REGMAP, 10_state R23). -/
  | busWrite (addr : Nat) (v : Nat)
  /-- The line `GRID <W> <H> : pixels`, in raster order (30_encoding R80). -/
  | loadGrid (w h : Nat) (pixels : List Pixel)
  /-- The line `MSG [bytes]` (30_encoding R80). -/
  | loadMsg (bytes : List Byte)
  /-- doc00's `setPixel`, by the host (10_state R24). -/
  | setPixel (x y : Nat) (p : Pixel)
  /-- doc00's `getPixel`, by the host (10_state R24). -/
  | getPixel (x y : Nat)
  /-- The host writes one message byte (10_state R25). -/
  | setMsg (k : Nat) (b : Byte)
  /-- The host reads one message byte back (60_exceptions R182: the host owns MSG while not busy). -/
  | getMsg (k : Nat)
  /-- The host reads OUT (10_state R26, 70_reset R204). -/
  | readOut
  /-- Reset, "at any time, including while `BUSY = 1`" (70_reset R200). DESIGN CHOICE (log 23): what triggers a reset
  "is left to the platform"; here it is a line of the script. -/
  | reset
  /-- The host lets one transition of the core pass (log 5). -/
  | pass
deriving DecidableEq, Repr

/-- What the host's last read returned: the model's own field, not the spec's (log 15). -/
inductive Readback where
  | nothing
  | status (v : BitVec 4)
  | count (n : Nat)
  | pixel (p : Pixel)
  | byte (b : Byte)
  | bytes (l : List Byte)
deriving DecidableEq, Repr

/-- An access the core issues on one of its ports (20_memory R40, R48). -/
inductive Access where
  | msgRead (k : Nat) (b : Byte)
  | gridRead (x y : Nat) (p : Pixel)
  | gridWrite (x y : Nat) (p : Pixel)
  | outAppend (b : Byte)
deriving DecidableEq, Repr

/-- The grid dimensions of past launches: W and H are "arguments of a launch", "fixed for the whole operation" (10_state
R11), and the bounds of R14 and R26 speak of the operation that left I or OUT, whatever the host presents after it. The
model's own record; nothing reads it (log 17). -/
structure Launch where
  w    : Nat   -- W at the last CMD write since reset
  h    : Nat   -- H at the last CMD write since reset
  outW : Nat   -- W at the DECODE that OUT comes from
  outH : Nat   -- H at the DECODE that OUT comes from
deriving DecidableEq, Repr

/-- No operation has run since reset. -/
def Launch.none : Launch := { w := 0, h := 0, outW := 0, outH := 0 }

/-- The state of the block, of its ports and of the host's script. -/
structure State where
  seq      : Seq            -- STATE (R16)
  err      : ErrCode        -- ERR (R18)
  i        : Nat            -- I, the scan index (R14)
  out      : List Byte      -- OUT (R26)
  grid     : Memory Pixel   -- GRID (R24), keyed by `cellKey`
  msg      : Memory Byte    -- MSG (R25), keyed by index
  w        : Nat            -- W (R21)
  h        : Nat            -- H (R21)
  len      : Nat            -- LEN (R21)
  m        : Byte           -- M (R13)
  pr       : Byte           -- PR (R13)
  pg       : Byte           -- PG (R13)
  pb       : Byte           -- PB (R13)
  cfg      : Config         -- IDXW, REGMAP: nothing writes it (log 9, log 10)
  launch   : Launch         -- the dimensions of past launches (R11, R29): the model's own record (log 17)
  pending  : List HostMove  -- the host's script, oldest first: the model's own (log 4)
  portWord : Option PortWord  -- a word put on a port from outside, taken by the next step: the model's own (log 21)
  readback : Readback       -- what the host last read: the model's own (log 15)
  trace    : List Access    -- the core's port accesses, oldest first: the model's own (log 15)
deriving DecidableEq, Repr

/-- Why the machine stops with a fault. -/
inductive Fault where
  /-- Raised by ENC_PIX and DEC_PIX if they would read outside GRID. The spec says this never happens (20_memory
  R50) and gives it no effect (91 N6). Unreachable from any state that meets `Inv`. Safe (log 13). -/
  | gridOutOfRange
deriving DecidableEq, Repr

/-- Why a move is refused. -/
inductive Refusal where
  /-- An instruction without a meaning. No arm of `exec` answers it. Safe. -/
  | notModelled (mnemonic : String)
  /-- Raised by the four command words while BUSY = 1: a host protocol violation whose outcome is "left
  unspecified" (70_reset R207, 93 U4). Safe (log 11). -/
  | commandWhileBusy
  /-- Raised by ENCODE and DECODE when the launch breaks the constraint of a finite implementation: "outside this
  spec (a model refuses it)" (00_scope R6, 93 U13). Safe (log 9). -/
  | indexWidthExceeded
  /-- Raised by a host access outside GRID or MSG (93 U9: "for host accesses, `refuse`"). Safe (log 12). -/
  | hostOutOfRange
  /-- Raised by a `GRID` line that does not list W*H pixels (30_encoding R80). Safe (log 12). -/
  | malformedLoad
  /-- Raised when a word at a port is no instruction. Safe (log 3). -/
  | rejectedWord (r : Reject)
  /-- Raised by a read of CMD: "reading `CMD` is not defined and a model gives it no read port" (10_state R19).
  Safe (log 19). -/
  | noReadPort
  /-- Raised by a host write of STATUS, I or OLEN, which the host only reads (10_state R23), and by a data word in the
  host's script: the host cannot write M, PR, PG or PB (10_state R13). Safe (log 19). -/
  | noWritePort
  /-- Raised by a bus access at an address REGMAP gives no register (10_state R23). Safe (log 10). -/
  | unmappedBusAddress
deriving DecidableEq, Repr

/-- The machine right after reset (10_state R28). The spec gives STATE, ERR, I and OUT. DESIGN CHOICE: scratch
registers 0 (log 6), GRID and MSG with nothing listed (log 7), W, H and LEN 0 (log 8), the open parameters of
`Config.initial` (log 9, log 10), no launch recorded (log 17), an empty script (log 4), no word on a port (log 21),
nothing read and no access made (log 15). -/
def State.reset : State :=
  { seq := .idle
    err := .none
    i := 0
    out := []
    grid := []
    msg := []
    w := 0
    h := 0
    len := 0
    m := 0#8
    pr := 0#8
    pg := 0#8
    pb := 0#8
    cfg := Config.initial
    launch := Launch.none
    pending := []
    portWord := none
    readback := .nothing
    trace := [] }

end Sys2Proof.Machine
end

