-- ==== Sys2Proof/Machine/Operands.lean ====
section
/-! DEFINITION. The operand forms: the Bit-Layout Convention EMBED and EXTRACT (40_bit_layout R90 to R92), the raster
index of a pixel (20_memory R43), the counts of a launch (41_encoder R113, 00_scope R6). -/

namespace Sys2Proof.Machine

/-- KEEP: mask of the message-byte bits that are stored, bits 7, 6, 5 (00_scope R5). -/
def keepMask : Byte := 0xE0#8

/-- CLR: mask applied to a channel before the embedded bit is OR-ed in (00_scope R5). -/
def clearMask : Byte := 0xFE#8

/-- SENT: the sentinel, a reconstructed byte of zero (00_scope R5, 30_encoding R73). -/
def sentinel : Byte := 0x00#8

/-- Bit `k` of a payload byte as a 0/1 byte: `m[k] = (m >> k) & 1` (40_bit_layout R91). -/
def payloadBit (m : Byte) (k : Nat) : Byte := (m >>> k) &&& 0x01#8

/-- `channel' = (channel & 0xFE) | embedded_bit` (40_bit_layout R90). -/
def embedChannel (c e : Byte) : Byte := (c &&& clearMask) ||| e

/-- EMBED: bit 7 of the payload byte to R, bit 6 to G, bit 5 to B (40_bit_layout R91). -/
def embed (m : Byte) (p : Pixel) : Pixel :=
  { r := embedChannel p.r (payloadBit m 7)
    g := embedChannel p.g (payloadBit m 6)
    b := embedChannel p.b (payloadBit m 5) }

/-- The carrier bit of a channel, `lsb = channel & 1` (40_bit_layout R92). -/
def carrierBit (c : Byte) : Byte := c &&& 0x01#8

/-- EXTRACT: `(lsbR << 7) | (lsbG << 6) | (lsbB << 5)` (40_bit_layout R92). -/
def extract (p : Pixel) : Byte :=
  (carrierBit p.r <<< 7) ||| (carrierBit p.g <<< 6) ||| (carrierBit p.b <<< 5)

/-- Column of scan index `i`: `x = i mod W` (20_memory R43). -/
def scanX (w i : Nat) : Nat := i % w

/-- Row of scan index `i`: `y = i div W` (20_memory R43). -/
def scanY (w i : Nat) : Nat := i / w

/-- Scan index of the pixel at column `x`, row `y`: `i = y*W + x` (20_memory R43). -/
def scanIndex (w x y : Nat) : Nat := y * w + x

/-- The number of pixels of a grid, W*H, without wrap (00_scope R6). -/
def pixelCount (w h : Nat) : Nat := w * h

/-- The capacity rule: an encode is admitted iff `LEN + 1 <= W*H` (41_encoder R113). -/
def admits (w h len : Nat) : Bool := decide (len + 1 ≤ pixelCount w h)

/-- The largest payload a grid carries: `W*H - 1` bytes, and no message at all when `W*H = 0` (00_scope R9). -/
def capacity (w h : Nat) : Option Nat :=
  if pixelCount w h = 0 then none else some (pixelCount w h - 1)

/-- A count fits the index width of the implementation (00_scope R6); an unbounded width fits every count. -/
def indexFits (c : Config) (n : Nat) : Bool :=
  match c.idxw with
  | none => true
  | some k => decide (n < 2 ^ k)

/-- The register REGMAP puts at a bus address (10_state R23). -/
def regAt (rm : RegMap) (a : Nat) : Option RegName :=
  [RegName.cmd, .status, .i, .olen, .w, .h, .len].find? (fun r => rm.addr r == a)

end Sys2Proof.Machine
end

