-- ==== Sys2Proof/Machine/Flags.lean ====
section
/-! DEFINITION. The flags and the status word, all views of other state (10_state R17, R20, R22), and the bits of an
error code (60_exceptions R174). There are no arithmetic condition codes (R17). -/

namespace Sys2Proof.Machine

/-- `BUSY = 1` iff STATE is ENC or DEC (10_state R17). -/
def busy (s : State) : Bool :=
  match s.seq with
  | .idle => false
  | .enc => true
  | .dec => true
  | .halt => false

/-- `DONE = 1` iff STATE is HALT (10_state R17). -/
def done (s : State) : Bool :=
  match s.seq with
  | .idle => false
  | .enc => false
  | .dec => false
  | .halt => true

/-- The encoding of ERR (60_exceptions R174). -/
def ErrCode.code : ErrCode → BitVec 2
  | .none => 0b00#2
  | .capacity => 0b01#2
  | .unterminated => 0b10#2
  | .usage => 0b11#2

/-- STATUS: ERR in 3:2, DONE in 1, BUSY in 0 (10_state R20). -/
def statusOf (s : State) : BitVec 4 :=
  s.err.code ++ (BitVec.ofBool (done s) ++ BitVec.ofBool (busy s))

/-- OLEN = |OUT| (10_state R22). -/
def olen (s : State) : Nat := s.out.length

end Sys2Proof.Machine
end

