-- ==== Sys2Proof/Machine/Ops.lean ====
section
/-! DEFINITION. The named operations over the three spaces and the registers (00_scope R8), and the one shared error
entry `raise` (60_exceptions R175) with the one shared way back, `beginCommand` (60_exceptions R178). -/

namespace Sys2Proof.Machine

variable {α : Type}

/-! ### A space in canonical form -/

/-- What a key reads as; `d` is what an unlisted key reads as. -/
def Memory.read (d : α) : Memory α → Nat → α
  | [], _ => d
  | (k, v) :: rest, a => if k = a then v else Memory.read d rest a

/-- The entry at a key taken out. -/
def Memory.erase (m : Memory α) (a : Nat) : Memory α := m.filter (fun c => c.1 != a)

/-- An entry put at its place among rising keys. -/
def Memory.put (a : Nat) (v : α) : Memory α → Memory α
  | [] => [(a, v)]
  | (k, u) :: rest =>
    if a < k then (a, v) :: (k, u) :: rest
    else if a = k then (a, v) :: rest
    else (k, u) :: Memory.put a v rest

/-- A write that keeps the canonical form: writing what an unlisted key reads as takes the entry out. -/
def Memory.write [DecidableEq α] (d : α) (m : Memory α) (a : Nat) (v : α) : Memory α :=
  if v = d then Memory.erase m a else Memory.put a v m

/-- The canonical form: keys strictly rising, no entry equal to what an unlisted key reads as. -/
abbrev Memory.wf (d : α) (m : Memory α) : Prop :=
  m.Pairwise (fun c c' => c.1 < c'.1) ∧ ∀ c ∈ m, c.2 ≠ d

/-! ### The three spaces -/

/-- What a pixel the host has not loaded reads as. DESIGN CHOICE (log 7). -/
def blankPixel : Pixel := { r := 0#8, g := 0#8, b := 0#8 }

/-- What a message byte the host has not loaded reads as. DESIGN CHOICE (log 7). -/
def blankByte : Byte := 0#8

/-- GRID is "addressed by coordinate pair, never by byte address" (10_state R24): the pair as one key (log 16). -/
def cellKey (x y : Nat) : Nat := Nat.pair x y

/-- The pixel at `(x, y)`. -/
def pixelAt (s : State) (x y : Nat) : Pixel := Memory.read blankPixel s.grid (cellKey x y)

/-- The pixel of scan index `k` (20_memory R43). -/
def pixelOfIndex (s : State) (k : Nat) : Pixel := pixelAt s (scanX s.w k) (scanY s.w k)

/-- Byte `k` of the message. -/
def msgByte (s : State) (k : Nat) : Byte := Memory.read blankByte s.msg k

/-- The range of GRID: `0 <= x < W`, `0 <= y < H` (20_memory R44). -/
def inGrid (s : State) (x y : Nat) : Bool := decide (x < s.w) && decide (y < s.h)

/-- An access recorded on the core's ports (log 15). -/
def note (a : Access) (s : State) : State := { s with trace := s.trace ++ [a] }

/-- A byte taken into M: the payload byte or the reconstructed byte (10_state R13). -/
def loadM (b : Byte) (s : State) : State := { s with m := b }

/-- A byte of the R lane taken into PR (10_state R13). -/
def loadPR (b : Byte) (s : State) : State := { s with pr := b }

/-- A byte of the G lane taken into PG (10_state R13). -/
def loadPG (b : Byte) (s : State) : State := { s with pg := b }

/-- A byte of the B lane taken into PB (10_state R13). -/
def loadPB (b : Byte) (s : State) : State := { s with pb := b }

/-- `M <- MsgRead(k)` (00_scope R8, 41_encoder R114). -/
def msgRead (k : Nat) (s : State) : State :=
  note (.msgRead k (msgByte s k)) (loadM (msgByte s k) s)

/-- `(PR, PG, PB) <- GridRead(x, y)` (00_scope R8, 20_memory R48: the whole pixel). -/
def gridRead (x y : Nat) (s : State) : State :=
  let p := pixelAt s x y
  note (.gridRead x y p) (loadPB p.b (loadPG p.g (loadPR p.r s)))

/-- The pixel the working registers hold. -/
def workingPixel (s : State) : Pixel := { r := s.pr, g := s.pg, b := s.pb }

/-- GRID with the pixel at `(x, y)` replaced. -/
def putPixel (x y : Nat) (p : Pixel) (s : State) : State :=
  { s with grid := Memory.write blankPixel s.grid (cellKey x y) p }

/-- `GridWrite(x, y, p)` (00_scope R8, 20_memory R48: all three channels). -/
def gridWrite (x y : Nat) (p : Pixel) (s : State) : State :=
  note (.gridWrite x y p) (putPixel x y p s)

/-- `OutAppend(v)`: `OUT <- OUT ++ [v]` (00_scope R8). -/
def outAppend (v : Byte) (s : State) : State :=
  note (.outAppend v) { s with out := s.out ++ [v] }

/-- `STATE <- v`. -/
def setSeq (v : Seq) (s : State) : State := { s with seq := v }

/-- `I <- v` (00_scope R8). -/
def setI (v : Nat) (s : State) : State := { s with i := v }

/-- `OUT <- []` (42_decoder R141). The launch whose output OUT then is goes on record (log 17). -/
def clearOut (s : State) : State :=
  { s with out := [], launch := { s.launch with outW := s.w, outH := s.h } }

/-! ### Error entry and the way back -/

/-- `raise`: `ERR <- code`, `STATE <- HALT`, "Nothing else" (60_exceptions R175). -/
def raise (e : ErrCode) (s : State) : State := { s with err := e, seq := .halt }

/-- The way back from an error: there is no return instruction; the next accepted CMD write clears ERR, and every
start step sets I to 0 (60_exceptions R178, 70_reset R202). The dimensions of the launch go on record (log 17). -/
def beginCommand (s : State) : State :=
  { s with err := .none, i := 0, launch := { s.launch with w := s.w, h := s.h } }

/-! ### Reset -/

/-- Reset of a running block: the values of 10_state R28; GRID, MSG and the host's inputs are not touched
(70_reset R200, R201). The scratch registers take the same named value as in `State.reset` (log 6), and no launch is on
record (log 17). -/
def resetBlock (s : State) : State :=
  { s with
    seq := .idle, err := .none, i := 0, out := [],
    m := 0#8, pr := 0#8, pg := 0#8, pb := 0#8, launch := Launch.none }

/-! ### The host's accesses -/

/-- A value returned to the host (log 15). -/
def answer (r : Readback) (s : State) : State := { s with readback := r }

/-- The host reads a register by name (10_state R23). -/
def readReg (r : RegName) (s : State) : Host.Outcome State Fault Refusal :=
  match r with
  | .cmd => .refused .noReadPort
  | .status => .next (answer (.status (statusOf s)) s)
  | .i => .next (answer (.count s.i) s)
  | .olen => .next (answer (.count (olen s)) s)
  | .w => .next (answer (.count s.w) s)
  | .h => .next (answer (.count s.h) s)
  | .len => .next (answer (.count s.len) s)

/-- The host presents W, H or LEN, of any size in IDLE and HALT alike (10_state R21, 70_reset R203, R204, R208); STATUS, I
and OLEN it only reads (R23). A CMD write is a word, run
by `Fetch.lean`, and never comes here. DESIGN CHOICE (log 22): cells written earlier keep their contents. -/
def supplyReg (r : RegName) (v : Nat) (s : State) : Host.Outcome State Fault Refusal :=
  match r with
  | .cmd => .refused .noWritePort
  | .status => .refused .noWritePort
  | .i => .refused .noWritePort
  | .olen => .refused .noWritePort
  | .w => .next { s with w := v }
  | .h => .next { s with h := v }
  | .len => .next { s with len := v }

/-- Pixels written in raster order from scan index `k` on, for a grid of width `w`. -/
def fillGrid (w : Nat) : Nat → List Pixel → Memory Pixel → Memory Pixel
  | _, [], g => g
  | k, p :: ps, g => fillGrid w (k + 1) ps (Memory.write blankPixel g (cellKey (scanX w k) (scanY w k)) p)

/-- Bytes written in order from index `k` on. -/
def fillMsg : Nat → List Byte → Memory Byte → Memory Byte
  | _, [], g => g
  | k, b :: bs, g => fillMsg (k + 1) bs (Memory.write blankByte g k b)

/-- The host loads W, H and W*H pixels (30_encoding R80). DESIGN CHOICE (log 22): the space starts from the empty list,
so a cell outside the new W by H is blank again, whatever was written there before. -/
def loadGrid (w h : Nat) (pixels : List Pixel) (s : State) : Host.Outcome State Fault Refusal :=
  if pixels.length = pixelCount w h then
    .next { s with w := w, h := h, grid := fillGrid w 0 pixels [] }
  else .refused .malformedLoad

/-- The host loads LEN and LEN bytes (30_encoding R80). DESIGN CHOICE (log 22): the space starts from the empty list, so
a byte at or above the new LEN is blank again. -/
def loadMsg (bytes : List Byte) (s : State) : Host.Outcome State Fault Refusal :=
  .next { s with len := bytes.length, msg := fillMsg 0 bytes [] }

/-- The host writes a pixel of its grid (10_state R24). -/
def hostSetPixel (x y : Nat) (p : Pixel) (s : State) : Host.Outcome State Fault Refusal :=
  if inGrid s x y then .next (putPixel x y p s) else .refused .hostOutOfRange

/-- The host reads a pixel of its grid (10_state R24). -/
def hostGetPixel (x y : Nat) (s : State) : Host.Outcome State Fault Refusal :=
  if inGrid s x y then .next (answer (.pixel (pixelAt s x y)) s) else .refused .hostOutOfRange

/-- The host writes a byte of its message (10_state R25). -/
def hostSetMsg (k : Nat) (b : Byte) (s : State) : Host.Outcome State Fault Refusal :=
  if k < s.len then .next { s with msg := Memory.write blankByte s.msg k b } else .refused .hostOutOfRange

/-- The host reads a byte of its message. -/
def hostGetMsg (k : Nat) (s : State) : Host.Outcome State Fault Refusal :=
  if k < s.len then .next (answer (.byte (msgByte s k)) s) else .refused .hostOutOfRange

/-! ### The spaces as sequences, for Layer S (00_scope section 1) -/

/-- GRID as the W*H pixels in raster order, `G[i]` of 41_encoder R112. -/
def gridList (s : State) : List Pixel := (List.range (pixelCount s.w s.h)).map (pixelOfIndex s)

/-- MSG as its LEN bytes. -/
def msgList (s : State) : List Byte := (List.range s.len).map (msgByte s)

end Sys2Proof.Machine
end

