-- ==== Sys2Proof/Machine/Decoder.lean ====
section
/-! DEFINITION. The Decoder: the command DECODE with its start step (42_decoder R141), the pixel step DEC_PIX (R143),
and the whole operation as a function, DECODE_FN (R142). -/

namespace Sys2Proof.Machine

/-- DEC_START (42_decoder R141). -/
def decStart (s : State) : State := setSeq .dec (clearOut (beginCommand s))

/-- A launch of DECODE fits the index width: `W*H < 2^IDXW` (00_scope R6). LEN "need not be valid for a DECODE"
(70_reset R204), so it is not checked (log 9). -/
def decodeFits (s : State) : Bool := indexFits s.cfg (pixelCount s.w s.h)

/-- DECODE, `CMD = 0b10` (42_decoder R141): accepted only while STATE is IDLE or HALT. -/
def execDecode (s : State) : Host.Outcome State Fault Refusal :=
  if busy s then .refused .commandWhileBusy
  else if decodeFits s then .next (decStart s)
  else .refused .indexWidthExceeded

/-- What a DEC_PIX step does with the byte in M: the sentinel halts, any other byte is appended (42_decoder R143,
R144). -/
def useReconstructed (s : State) : State :=
  if s.m = sentinel then setSeq .halt s else outAppend s.m s

/-- DEC_PIX (42_decoder R143): the exhaustion test comes before the pixel read, the sentinel test after it
(60_exceptions R177). -/
def decPix (s : State) : Host.Outcome State Fault Refusal :=
  let x := scanX s.w s.i
  let y := scanY s.w s.i
  if s.i = pixelCount s.w s.h then .next (raise .unterminated s)
  else if inGrid s x y then
    let s := gridRead x y s
    let s := useReconstructed (loadM (extract (workingPixel s)) s)
    .next (setI (s.i + 1) s)
  else .fault .gridOutOfRange

/-- DECODE_FN (42_decoder R142); `g` lists the W*H pixels in raster order. With no sentinel all bytes are returned,
as a diagnostic and not as a message (R145). -/
def decodeFn (g : List Pixel) : ErrCode × List Byte :=
  match (g.map extract).findIdx? (fun e => e == sentinel) with
  | some t => (.none, (g.map extract).take t)
  | none => (.unterminated, g.map extract)

end Sys2Proof.Machine
end

