-- ==== Sys2Proof/Machine/Encoder.lean ====
section
/-! DEFINITION. The Encoder: the command ENCODE with its start step (41_encoder R111), the pixel step ENC_PIX (R114),
and the whole operation as a function, ENCODE_FN (R112). -/

namespace Sys2Proof.Machine

/-- ENC_START (41_encoder R111): the capacity check uses the three counts only and touches no space. -/
def encStart (s : State) : State :=
  if admits s.w s.h s.len then setSeq .enc (beginCommand s) else raise .capacity (beginCommand s)

/-- A launch of ENCODE fits the index width: `W*H < 2^IDXW` and `LEN < 2^IDXW` (00_scope R6). -/
def encodeFits (s : State) : Bool := indexFits s.cfg (pixelCount s.w s.h) && indexFits s.cfg s.len

/-- ENCODE, `CMD = 0b01` (41_encoder R111): accepted only while STATE is IDLE or HALT. -/
def execEncode (s : State) : Host.Outcome State Fault Refusal :=
  if busy s then .refused .commandWhileBusy
  else if encodeFits s then .next (encStart s)
  else .refused .indexWidthExceeded

/-- The payload byte of an ENC_PIX step: "the i-th message byte if i < message.length, else 0" (41_encoder R114). -/
def takePayload (s : State) : State :=
  if s.i < s.len then msgRead s.i s else loadM sentinel s

/-- ENC_PIX (41_encoder R114): MsgRead, GridRead, GridWrite, in that order (20_memory R54); the tests on I use its
value at the start of the step. -/
def encPix (s : State) : Host.Outcome State Fault Refusal :=
  let x := scanX s.w s.i
  let y := scanY s.w s.i
  if inGrid s x y then
    let s := gridRead x y (takePayload s)
    let s := gridWrite x y (embed s.m (workingPixel s)) s
    let s := if s.i = s.len then setSeq .halt s else s
    .next (setI (s.i + 1) s)
  else .fault .gridOutOfRange

/-- The pixel ENCODE_FN leaves at scan index `k` (41_encoder R112): payload, terminator, untouched. -/
def encodedPixel (msg : List Byte) (k : Nat) (p : Pixel) : Pixel :=
  if k < msg.length then embed (msg.getD k sentinel) p
  else if k = msg.length then embed sentinel p
  else p

/-- The pixels of ENCODE_FN from scan index `k` on. -/
def encodeFrom (msg : List Byte) : Nat → List Pixel → List Pixel
  | _, [] => []
  | k, p :: ps => encodedPixel msg k p :: encodeFrom msg (k + 1) ps

/-- ENCODE_FN (41_encoder R112); `g` lists the pixels in raster order. -/
def encodeFn (w h : Nat) (g : List Pixel) (msg : List Byte) : List Pixel × ErrCode :=
  if admits w h msg.length then (encodeFrom msg 0 g, .none) else (g, .capacity)

end Sys2Proof.Machine
end

