-- ==== Sys2Proof/Machine/Errors.lean ====
section
/-! DEFINITION. The two illegal command words (60_exceptions R173). -/

namespace Sys2Proof.Machine

/-- USAGE_START (60_exceptions R173): the common re-initialisation, then UsageError; no space is touched. -/
def usageStart (s : State) : State := raise .usage (beginCommand s)

/-- `CMD = 0b00`, "neither" (60_exceptions R173), while STATE is IDLE or HALT. -/
def execIllegalNeither (s : State) : Host.Outcome State Fault Refusal :=
  if busy s then .refused .commandWhileBusy else .next (usageStart s)

/-- `CMD = 0b11`, "both" (60_exceptions R173), while STATE is IDLE or HALT. -/
def execIllegalBoth (s : State) : Host.Outcome State Fault Refusal :=
  if busy s then .refused .commandWhileBusy else .next (usageStart s)

end Sys2Proof.Machine
end

