-- ==== Sys2Proof/Machine/Formats.lean ====
section
/-! DEFINITION. The data-format and register-format rows. A data word standing alone makes the one transfer that its
byte makes inside a pixel step: port to working register (10_state R13, 00_scope R8). DESIGN CHOICE (log 1): the
spec lists these rows as formats and gives them no command of their own; the transfer is the only effect it gives
their bytes before a step combines them. -/

namespace Sys2Proof.Machine

/-- DATA.PAYLOAD_BYTE: "message byte m as the encoder reads it"; M holds it, dropped bits too (30_encoding R71,
10_state R13). -/
def execPayloadByte (stored : BitVec 3) (dropped : BitVec 5) (s : State) : Host.Outcome State Fault Refusal :=
  .next (loadM (payloadBits stored dropped) s)

/-- DATA.CHANNEL_R: the R channel as read goes to PR (30_encoding R70, 10_state R13). -/
def execChannelR (cover : BitVec 7) (carrier : BitVec 1) (s : State) : Host.Outcome State Fault Refusal :=
  .next (loadPR (channelBits cover carrier) s)

/-- DATA.CHANNEL_G: the G channel as read goes to PG (30_encoding R70, 10_state R13). -/
def execChannelG (cover : BitVec 7) (carrier : BitVec 1) (s : State) : Host.Outcome State Fault Refusal :=
  .next (loadPG (channelBits cover carrier) s)

/-- DATA.CHANNEL_B: the B channel as read goes to PB (30_encoding R70, 10_state R13). -/
def execChannelB (cover : BitVec 7) (carrier : BitVec 1) (s : State) : Host.Outcome State Fault Refusal :=
  .next (loadPB (channelBits cover carrier) s)

/-- DATA.RECONSTRUCTED_BYTE: the byte the decoder assembles goes to M (30_encoding R72, 10_state R13). -/
def execReconstructed (stored : BitVec 3) (s : State) : Host.Outcome State Fault Refusal :=
  .next (loadM (payloadBits stored 0#5) s)

/-- STATUS: the host reads the status word (10_state R20), at any time ("A model that lets the host read `STATUS`
while busy returns `0b0001`"). "No field is write-any-read-legal; none is writable": the bits of the word have no
effect on the block. DESIGN CHOICE (log 2). -/
def execStatus (_err : BitVec 2) (_done _busy : BitVec 1) (s : State) : Host.Outcome State Fault Refusal :=
  readReg .status s

end Sys2Proof.Machine
end

