-- ==== Sys2Proof/Machine/Dispatch.lean ====
section
/-! DEFINITION. One arm per row of the opcode table. -/

namespace Sys2Proof.Machine

def exec (i : Instr) (s : State) : Host.Outcome State Fault Refusal :=
  match i with
  | .cmdEncode => Sys2Proof.Machine.execEncode s
  | .cmdDecode => Sys2Proof.Machine.execDecode s
  | .cmdNeither => Sys2Proof.Machine.execIllegalNeither s
  | .cmdBoth => Sys2Proof.Machine.execIllegalBoth s
  | .dataPayloadByte stored dropped => Sys2Proof.Machine.execPayloadByte stored dropped s
  | .dataChannelR cover carrier => Sys2Proof.Machine.execChannelR cover carrier s
  | .dataChannelG cover carrier => Sys2Proof.Machine.execChannelG cover carrier s
  | .dataChannelB cover carrier => Sys2Proof.Machine.execChannelB cover carrier s
  | .dataReconstructed stored => Sys2Proof.Machine.execReconstructed stored s
  | .statusWord err done busy => Sys2Proof.Machine.execStatus err done busy s

end Sys2Proof.Machine
end

