-- ==== Sys2Proof/Machine/Fetch.lean ====
section
/-! DEFINITION. Who moves next and what the move is. There is no instruction fetch (20_memory R58): the block is driven
by the host's script (30_encoding R80), and while STATE is ENC or DEC by its own pixel steps (10_state R16). -/

namespace Sys2Proof.Machine

/-- The core's transition (10_state R16): exactly one pixel step in ENC and DEC. In IDLE and HALT "the core has no
step": the block waits and nothing changes (log 4). -/
def coreStep (s : State) : Host.Outcome State Fault Refusal :=
  match s.seq with
  | .idle => .next s
  | .enc => encPix s
  | .dec => decPix s
  | .halt => .next s

/-- A word at a port: decoded, and run if it is an instruction. -/
def runWord (pw : PortWord) (s : State) : Host.Outcome State Fault Refusal :=
  match decode pw with
  | .ok i => exec i s
  | .error r => .refused (.rejectedWord r)

/-- The host writes a register by name: a CMD write is the command word (10_state R19), any other register is
presented or refused (`supplyReg`). -/
def writeReg (r : RegName) (v : Nat) (s : State) : Host.Outcome State Fault Refusal :=
  if r = .cmd then
    if v < 256 then runWord { port := .cmd, bits := BitVec.ofNat 8 v } s
    else .refused (.rejectedWord .cmdTooWide)
  else supplyReg r v s

/-- The ports at which the host has words: it writes CMD and reads STATUS (10_state R23). It "cannot read or write" M,
PR, PG and PB (10_state R13), so a data port is none of its own. -/
def hostPort : Port → Bool
  | .cmd => true
  | .status => true
  | .msg => false
  | .laneR => false
  | .laneG => false
  | .laneB => false
  | .out => false

/-- One move of the host. -/
def hostAct (mv : HostMove) (s : State) : Host.Outcome State Fault Refusal :=
  match mv with
  | .word pw => if hostPort pw.port then runWord pw s else .refused .noWritePort
  | .readReg r => readReg r s
  | .writeReg r v => writeReg r v s
  | .busRead a =>
    match regAt s.cfg.regmap a with
    | some r => readReg r s
    | none => .refused .unmappedBusAddress
  | .busWrite a v =>
    match regAt s.cfg.regmap a with
    | some r => writeReg r v s
    | none => .refused .unmappedBusAddress
  | .loadGrid w h pixels => loadGrid w h pixels s
  | .loadMsg bytes => loadMsg bytes s
  | .setPixel x y p => hostSetPixel x y p s
  | .getPixel x y => hostGetPixel x y s
  | .setMsg k b => hostSetMsg k b s
  | .getMsg k => hostGetMsg k s
  | .readOut => .next (answer (.bytes s.out) s)
  | .reset => .next (resetBlock s)
  | .pass => coreStep s

/-- A line of the script waits for the operation to end (30_encoding R80, 20_memory R57, 70_reset R205 to R207), save a
reset (70_reset R200), a STATUS read (10_state R20, 60_exceptions R180: "a level the host polls") and a pass
(log 5). -/
def waitsForDone (cfg : Config) : HostMove → Bool
  | .word pw => pw.port != .status
  | .readReg r => r != .status
  | .writeReg _ _ => true
  | .busRead a => regAt cfg.regmap a != some .status
  | .busWrite _ _ => true
  | .loadGrid _ _ _ => true
  | .loadMsg _ => true
  | .setPixel _ _ _ => true
  | .getPixel _ _ => true
  | .setMsg _ _ => true
  | .getMsg _ => true
  | .readOut => true
  | .reset => false
  | .pass => false

/-- A word put on its port from outside the machine: the very next transition takes it, before the script and before the
core's pixel step. DESIGN CHOICE (log 21). No step and no host move puts one there. -/
def presentWord (pw : PortWord) (s : State) : State := { s with portWord := some pw }

end Sys2Proof.Machine
end

