-- ==== Sys2Proof/Machine/Step.lean ====
section
/-! DEFINITION. One step of the machine, the host's fetch word, and runs of many steps. -/

namespace Sys2Proof.Machine

/-- One transition (10_state R16): the next line of the host's script, or the core's pixel step while the block is busy
and that line waits for it, or nothing where nobody has a move. A word put on a port from outside comes first (log 21). -/
def step (s : State) : Host.Outcome State Fault Refusal :=
  match s.portWord with
  | some pw => runWord pw { s with portWord := none }
  | none =>
    match s.pending with
    | [] => coreStep s
    | mv :: rest =>
      if busy s && waitsForDone s.cfg mv then coreStep s
      else hostAct mv { s with pending := rest }

/-- The host's entry: the word of an opcode-table row put on its port, where the next step takes it. A word that no row of the table
has the width for leaves the state as it is. -/
def State.withFetchWord (s : State) (nbits w : Nat) : State :=
  match tableWord nbits w with
  | some pw => presentWord pw s
  | none => s

/-- `k` steps, ending at the first fault or refusal. -/
def run : Nat → State → Host.Outcome State Fault Refusal
  | 0, s => .next s
  | k + 1, s =>
    match step s with
    | .next s' => run k s'
    | .fault r => .fault r
    | .refused r => .refused r

end Sys2Proof.Machine
end

