-- ==== Sys2Proof/Safety.lean ====
section
/-! DEFINITION. What holds in every state of a safe run: the invariants of 10_state R29, the canonical form of the two
spaces, and the bytes OUT may hold (10_state R26). -/

namespace Sys2Proof.Machine

/-- GRID and MSG are in canonical form. -/
abbrev SpacesCanonical (s : State) : Prop :=
  Memory.wf blankPixel s.grid ∧ Memory.wf blankByte s.msg

/-- 10_state R29 item 2: in IDLE nothing has run since reset. -/
abbrev IdleClean (s : State) : Prop :=
  s.seq = .idle → s.err = .none ∧ s.i = 0 ∧ s.out = []

/-- 10_state R29 item 3: an encode in progress was admitted and has not passed its terminator. -/
abbrev EncInRange (s : State) : Prop :=
  s.seq = .enc → s.err = .none ∧ s.len + 1 ≤ s.w * s.h ∧ s.i ≤ s.len

/-- 10_state R29 item 4: a decode in progress has appended one byte for each pixel visited. -/
abbrev DecInRange (s : State) : Prop :=
  s.seq = .dec → s.err = .none ∧ s.out.length = s.i ∧ s.i ≤ s.w * s.h

/-- 10_state R29 item 5: an error stands only in HALT. -/
abbrev ErrOnlyInHalt (s : State) : Prop :=
  s.err ≠ .none → s.seq = .halt

/-- 10_state R14, R29 item 1: the scan index is at most the number of pixels of the launch it belongs to (log 17). -/
abbrev ScanInGrid (s : State) : Prop :=
  s.i ≤ s.launch.w * s.launch.h

/-- 10_state R26: OUT is never longer than the grid it was decoded from (log 17). -/
abbrev OutInGrid (s : State) : Prop :=
  s.out.length ≤ s.launch.outW * s.launch.outH

/-- 10_state R11, R29 item 6: in an operation the dimensions of GRID are those of its launch. -/
abbrev LaunchHolds (s : State) : Prop :=
  (busy s = true → s.w = s.launch.w ∧ s.h = s.launch.h) ∧
  (s.seq = .dec → s.w = s.launch.outW ∧ s.h = s.launch.outH)

/-- 10_state R26: every element of OUT is one of the seven non-zero reconstructed bytes. -/
abbrev OutReconstructed (s : State) : Prop :=
  ∀ b ∈ s.out, b ∈ [0x20#8, 0x40#8, 0x60#8, 0x80#8, 0xA0#8, 0xC0#8, 0xE0#8]

/-- The invariant of the machine (10_state R29 items 1 to 5, R26). The W and H of items 1 and 6 are "the launch arguments"
of R29's tuple (log 17). Items 6 and 7 speak of two states, and are stated of a step. -/
structure Inv (s : State) : Prop where
  spaces : SpacesCanonical s
  idle   : IdleClean s
  enc    : EncInRange s
  dec    : DecInRange s
  err    : ErrOnlyInHalt s
  out    : OutReconstructed s
  scan   : ScanInGrid s
  outLen : OutInGrid s
  launch : LaunchHolds s

/-- No word stands on a port, and the host's script is these lines. -/
abbrev NextLines (s : State) (lines : List HostMove) : Prop :=
  s.portWord = none ∧ s.pending = lines

/-- Nothing from outside could act while the block is busy: no word stands on a port, and the next line of the host's
script, if any, waits. -/
abbrev ScriptWaits (s : State) : Prop :=
  s.portWord = none ∧ ∀ mv ∈ s.pending.head?, waitsForDone s.cfg mv = true

/-- A host move that writes CMD, as a word, by name or at its bus address (10_state R19, R23). -/
def commandWrite (cfg : Config) : HostMove → Bool
  | .word pw => pw.port == .cmd
  | .writeReg r _ => r == .cmd
  | .busWrite a _ => regAt cfg.regmap a == some .cmd
  | _ => false

/-- A host move that presents W or H: by name, at its bus address or with a `GRID` line (10_state R21, R23; 30_encoding
R80). -/
def presentsDimensions (cfg : Config) : HostMove → Bool
  | .writeReg r _ => r == .w || r == .h
  | .busWrite a _ => regAt cfg.regmap a == some .w || regAt cfg.regmap a == some .h
  | .loadGrid _ _ _ => true
  | _ => false

end Sys2Proof.Machine
end

