-- ==== Sys2Proof/Certificates/Slice0/Obligations.lean ====
section
/-! DEFINITION. The statements for the provers. Each docstring names the rules of spec/ the statement rests on, and
where it rests on a choice of the model, the log entry. -/

open Sys2Proof Sys2Proof.Machine

/-! ### Words -/

/-- 30_encoding R75, R76 (CMD), R70 to R72 (data formats), 10_state R20 (STATUS): words written out bit by bit decode to
the instruction they stand for, one or more of every family. The port a word stands at is the model's choice (log 3). -/
def Obligations.SampleWordsDecode : Prop :=
  decode { port := .cmd, bits := 0b00000001#8 } = .ok .cmdEncode ∧
  decode { port := .cmd, bits := 0b00000010#8 } = .ok .cmdDecode ∧
  decode { port := .cmd, bits := 0b00000000#8 } = .ok .cmdNeither ∧
  decode { port := .cmd, bits := 0b00000011#8 } = .ok .cmdBoth ∧
  decode { port := .msg, bits := 0b01000001#8 } = .ok (.dataPayloadByte 0b010#3 0b00001#5) ∧
  decode { port := .laneR, bits := 0b11001000#8 } = .ok (.dataChannelR 0b1100100#7 0#1) ∧
  decode { port := .laneG, bits := 0b11001001#8 } = .ok (.dataChannelG 0b1100100#7 1#1) ∧
  decode { port := .laneB, bits := 0b00001010#8 } = .ok (.dataChannelB 0b0000101#7 0#1) ∧
  decode { port := .out, bits := 0b01000000#8 } = .ok (.dataReconstructed 0b010#3) ∧
  decode { port := .status, bits := 0b00001010#8 } = .ok (.statusWord 0b10#2 1#1 0#1)

/-- Every well-formed instruction's word decodes to that instruction, whatever its fields: no bit of an encoding is
dropped (30_encoding R70 to R72, R75, R76; 10_state R20). -/
def Obligations.DecodeOfEncode : Prop :=
  ∀ i : Instr, WellFormed i = true → decode (encode i) = .ok i

/-- What the decoder accepts is well-formed and is the word of exactly one instruction (30_encoding R76, R77). -/
def Obligations.EncodeOfDecode : Prop :=
  ∀ (pw : PortWord) (i : Instr), decode pw = .ok i → WellFormed i = true ∧ encode i = pw

/-- 30_encoding R75, R76: the decoder of command words is total; the four values of the 2-bit word select ENCODE, DECODE
and the two illegal words, and a word with a bit above bit 1 is no command word. -/
def Obligations.CommandWordMap : Prop :=
  ∀ b : Byte, decode { port := .cmd, bits := b } =
    if b = 0b01#8 then .ok .cmdEncode
    else if b = 0b10#8 then .ok .cmdDecode
    else if b = 0b00#8 then .ok .cmdNeither
    else if b = 0b11#8 then .ok .cmdBoth
    else .error .cmdTooWide

/-! ### The step -/

/-- A step runs the decoded word. A word put on a port from outside (log 21) is taken first, and the step is `exec` of the
instruction it decodes to, on the state with the word taken off. With no such word the next line of the script (log 4)
does the same when it is a CMD word and the block is not busy, or a STATUS word at any time (10_state R20, log 5); a data
word is no line of the host's and is refused (R13, log 19). A word that is no instruction is refused by name (log 3).
10_state R16, R19. -/
def Obligations.StepRunsDecodedWord : Prop :=
  ∀ (s : State) (pw : PortWord),
    (s.portWord = some pw →
      (∀ i, decode pw = .ok i → step s = exec i { s with portWord := none }) ∧
      (∀ r, decode pw = .error r → step s = .refused (.rejectedWord r))) ∧
    (∀ rest, NextLines s (.word pw :: rest) → (busy s = false ∨ pw.port = .status) →
      ((pw.port = .cmd ∨ pw.port = .status) →
        (∀ i, decode pw = .ok i → step s = exec i { s with pending := rest }) ∧
        (∀ r, decode pw = .error r → step s = .refused (.rejectedWord r))) ∧
      (¬ (pw.port = .cmd ∨ pw.port = .status) → step s = .refused .noWritePort))

/-- The host's entry: after `withFetchWord` the very next step runs the instruction `decodeTableWord` gives, on the state with
nothing else changed. The place it puts the word is the model's choice (log 21). -/
def Obligations.FetchWordRuns : Prop :=
  ∀ (s : State) (nbits w : Nat) (i : Instr), decodeTableWord nbits w = some i →
    step (s.withFetchWord nbits w) = exec i { s with portWord := none }

/-- 10_state R16: in ENC and DEC exactly one core step is enabled, ENC_PIX or DEC_PIX, and the host's lines wait for it;
in IDLE and HALT the core has no step, and with no line left nothing changes (log 4). -/
def Obligations.BusyBlockTakesItsPixelStep : Prop :=
  (∀ s : State, ScriptWaits s → s.seq = .enc → step s = encPix s) ∧
  (∀ s : State, ScriptWaits s → s.seq = .dec → step s = decPix s) ∧
  (∀ s : State, NextLines s [] → (s.seq = .idle ∨ s.seq = .halt) → step s = .next s)

/-! ### The commands -/

/-- 41_encoder R111, ENC_START. For every state in IDLE or HALT (launch within the index width, 00_scope R6) ENCODE
completes; the whole next state is given, so GRID, MSG and OUT and all else are untouched (of the model's own record of
launches, log 17, nothing is said). It is accepted only in IDLE or HALT. -/
def Obligations.EncodeStart : Prop :=
  decode { port := .cmd, bits := 0b01#8 } = .ok .cmdEncode ∧
  (∀ s : State, (s.seq = .idle ∨ s.seq = .halt) →
    indexFits s.cfg (s.w * s.h) = true → indexFits s.cfg s.len = true →
    ∃ t, exec .cmdEncode s = .next t ∧
      t = (if s.len + 1 > s.w * s.h then { s with err := .capacity, i := 0, seq := .halt, launch := t.launch }
        else { s with err := .none, i := 0, seq := .enc, launch := t.launch })) ∧
  (∀ s t : State, exec .cmdEncode s = .next t → s.seq = .idle ∨ s.seq = .halt)

/-- 42_decoder R141, DEC_START. For every state in IDLE or HALT (launch within the index width, 00_scope R6) DECODE
completes; the whole next state is given (of the model's own record of launches, log 17, nothing is said). It is accepted
only in IDLE or HALT. -/
def Obligations.DecodeStart : Prop :=
  decode { port := .cmd, bits := 0b10#8 } = .ok .cmdDecode ∧
  (∀ s : State, (s.seq = .idle ∨ s.seq = .halt) → indexFits s.cfg (s.w * s.h) = true →
    ∃ t, exec .cmdDecode s = .next t ∧
      t = { s with err := .none, i := 0, out := [], seq := .dec, launch := t.launch }) ∧
  (∀ s t : State, exec .cmdDecode s = .next t → s.seq = .idle ∨ s.seq = .halt)

/-- 60_exceptions R173, USAGE_START: both illegal command words, in IDLE or HALT, end at once with ERR = 3, I = 0 and
STATE = HALT, and nothing else changes (of the model's own record of launches, log 17, nothing is said). -/
def Obligations.IllegalCommandsRaiseUsage : Prop :=
  decode { port := .cmd, bits := 0b00#8 } = .ok .cmdNeither ∧
  decode { port := .cmd, bits := 0b11#8 } = .ok .cmdBoth ∧
  ErrCode.usage.code = 3#2 ∧
  (∀ s : State, (s.seq = .idle ∨ s.seq = .halt) →
    ∃ t, exec .cmdNeither s = .next t ∧ exec .cmdBoth s = .next t ∧
      t = { s with err := .usage, i := 0, seq := .halt, launch := t.launch })

/-- 70_reset R207, 93 U4 (treatment `refuse`): the model gives the host no CMD write while STATE is ENC or DEC: all four
command words are refused by name. The refusal is the model's form of that rule (log 11). -/
def Obligations.CommandWhileBusyRefused : Prop :=
  ∀ s : State, (s.seq = .enc ∨ s.seq = .dec) →
    exec .cmdEncode s = .refused .commandWhileBusy ∧
    exec .cmdDecode s = .refused .commandWhileBusy ∧
    exec .cmdNeither s = .refused .commandWhileBusy ∧
    exec .cmdBoth s = .refused .commandWhileBusy

/-- 00_scope R6, 93 U13: a launch that breaks the constraint of a finite implementation is refused: W*H and LEN for
ENCODE, W*H alone for DECODE, which ignores LEN (the model's reading, log 9). -/
def Obligations.LaunchBeyondIndexWidthRefused : Prop :=
  ∀ (s : State) (k : Nat), s.cfg.idxw = some k → (s.seq = .idle ∨ s.seq = .halt) →
    ((2 ^ k ≤ s.w * s.h ∨ 2 ^ k ≤ s.len) → exec .cmdEncode s = .refused .indexWidthExceeded) ∧
    (2 ^ k ≤ s.w * s.h → exec .cmdDecode s = .refused .indexWidthExceeded)

/-! ### The data-format and status rows -/

/-- DATA.PAYLOAD_BYTE: the whole byte, dropped field and all, is taken into M (30_encoding R71, 10_state R13) and nothing
else changes. That a data word may stand alone is the model's choice (log 1). -/
def Obligations.PayloadByteReachesM : Prop :=
  (∀ (stored : BitVec 3) (dropped : BitVec 5) (s : State),
    exec (.dataPayloadByte stored dropped) s = .next { s with m := stored ++ dropped }) ∧
  (∀ (b : Byte) (s : State), ∃ i, decode { port := .msg, bits := b } = .ok i ∧ exec i s = .next { s with m := b })

/-- DATA.CHANNEL_R, G, B: the byte of each lane is taken into PR, PG or PB (30_encoding R70, 10_state R13) and nothing
else changes. That a data word may stand alone is the model's choice (log 1). -/
def Obligations.ChannelBytesReachTheirRegisters : Prop :=
  (∀ (cover : BitVec 7) (carrier : BitVec 1) (s : State),
    exec (.dataChannelR cover carrier) s = .next { s with pr := cover ++ carrier } ∧
    exec (.dataChannelG cover carrier) s = .next { s with pg := cover ++ carrier } ∧
    exec (.dataChannelB cover carrier) s = .next { s with pb := cover ++ carrier }) ∧
  (∀ (b : Byte) (s : State),
    (∃ i, decode { port := .laneR, bits := b } = .ok i ∧ exec i s = .next { s with pr := b }) ∧
    (∃ i, decode { port := .laneG, bits := b } = .ok i ∧ exec i s = .next { s with pg := b }) ∧
    (∃ i, decode { port := .laneB, bits := b } = .ok i ∧ exec i s = .next { s with pb := b }))

/-- DATA.RECONSTRUCTED_BYTE: the byte `ABC00000` is taken into M (30_encoding R72, 10_state R13) and nothing else changes;
a byte with a bit set in 4:0 is never one (30_encoding R77). That a data word may stand alone is the model's choice
(log 1). -/
def Obligations.ReconstructedByteReachesM : Prop :=
  (∀ (stored : BitVec 3) (s : State),
    exec (.dataReconstructed stored) s = .next { s with m := stored ++ 0#5 }) ∧
  (∀ (b : Byte) (s : State), b &&& 0x1F#8 = 0#8 →
    ∃ i, decode { port := .out, bits := b } = .ok i ∧ exec i s = .next { s with m := b }) ∧
  (∀ b : Byte, b &&& 0x1F#8 ≠ 0#8 → decode { port := .out, bits := b } = .error .notReconstructed)

/-- 10_state R20, R17, 60_exceptions R174: STATUS is a pure view, BUSY in bit 0, DONE in bit 1, ERR in bits 3:2. A STATUS
word completes in every state and changes nothing but what the host has read (the readback is the model's own field, log
15; that the word's bits have no effect is the model's choice, log 2). In every state that meets the invariant the value
is one of R20's legal values, and `0b0001` while busy. -/
def Obligations.StatusReadAnswersTheView : Prop :=
  ∀ (s : State) (e : BitVec 2) (d b : BitVec 1), ∃ v : BitVec 4,
    exec (.statusWord e d b) s = .next { s with readback := .status v } ∧
    (v.getLsbD 0 = true ↔ s.seq = .enc ∨ s.seq = .dec) ∧
    (v.getLsbD 1 = true ↔ s.seq = .halt) ∧
    v.extractLsb' 2 2 = (match s.err with
      | .none => 0#2 | .capacity => 1#2 | .unterminated => 2#2 | .usage => 3#2) ∧
    (Inv s → (s.seq = .idle ∨ s.seq = .halt) → v ∈ [0b0000#4, 0b0010#4, 0b0110#4, 0b1010#4, 0b1110#4]) ∧
    (Inv s → (s.seq = .enc ∨ s.seq = .dec) → v = 0b0001#4)

/-- The frame of all ten instructions at once: when one gives a next state, GRID, MSG, W, H, LEN, the open parameters, the
script, the word on a port and the port trace are as before; OUT changes only by DECODE; STATE, ERR and I only by the four
command words; M only by a payload or reconstructed byte; PR, PG, PB only by a byte of their lane; the readback only by
STATUS. 41_encoder R111, 42_decoder R141, 60_exceptions R173 for the command words. That a data word and a STATUS word change
nothing else is the model's choice (log 1, log 2), and readback, trace, port word and the record of launches are its own
fields (log 15, log 17, log 21). -/
def Obligations.InstructionFrame : Prop :=
  ∀ (i : Instr) (s t : State), exec i s = .next t →
    (∀ x y, pixelAt t x y = pixelAt s x y) ∧ (∀ k, msgByte t k = msgByte s k) ∧
    t.grid = s.grid ∧ t.msg = s.msg ∧ t.w = s.w ∧ t.h = s.h ∧ t.len = s.len ∧ t.cfg = s.cfg ∧
    t.pending = s.pending ∧ t.portWord = s.portWord ∧ t.trace = s.trace ∧
    (i ≠ .cmdDecode → t.out = s.out) ∧
    ((encode i).port ≠ .cmd → t.seq = s.seq ∧ t.err = s.err ∧ t.i = s.i ∧ t.launch = s.launch) ∧
    ((encode i).port ≠ .msg → (encode i).port ≠ .out → t.m = s.m) ∧
    ((encode i).port ≠ .laneR → t.pr = s.pr) ∧
    ((encode i).port ≠ .laneG → t.pg = s.pg) ∧
    ((encode i).port ≠ .laneB → t.pb = s.pb) ∧
    ((encode i).port ≠ .status → t.readback = s.readback)

/-! ### The Bit-Layout Convention -/

/-- 40_bit_layout R90: bit 7 of the payload byte goes to R, bit 6 to G, bit 5 to B, each into bit 0 only; the other 7 bits
of each channel are untouched; bits 4:0 of the byte have no effect; EXTRACT reads the same bits in the same order. -/
def Obligations.BitLayoutConvention : Prop :=
  (∀ (m : Byte) (p : Pixel),
    (embed m p).r.getLsbD 0 = m.getLsbD 7 ∧
    (embed m p).g.getLsbD 0 = m.getLsbD 6 ∧
    (embed m p).b.getLsbD 0 = m.getLsbD 5 ∧
    (∀ k, 0 < k →
      (embed m p).r.getLsbD k = p.r.getLsbD k ∧
      (embed m p).g.getLsbD k = p.g.getLsbD k ∧
      (embed m p).b.getLsbD k = p.b.getLsbD k)) ∧
  (∀ (m n : Byte) (p : Pixel), (∀ k, 5 ≤ k → m.getLsbD k = n.getLsbD k) → embed m p = embed n p) ∧
  (∀ p : Pixel,
    (extract p).getLsbD 7 = p.r.getLsbD 0 ∧
    (extract p).getLsbD 6 = p.g.getLsbD 0 ∧
    (extract p).getLsbD 5 = p.b.getLsbD 0 ∧
    (∀ k, k < 5 → (extract p).getLsbD k = false))

/-- 40_bit_layout R93 (the spec marks it derived): EXTRACT takes the eight values of the table, by the three carrier bits,
and is zero exactly when all three channels are even. -/
def Obligations.ExtractImage : Prop :=
  ∀ p : Pixel,
    extract p = (match p.r.getLsbD 0, p.g.getLsbD 0, p.b.getLsbD 0 with
      | false, false, false => 0x00#8
      | false, false, true => 0x20#8
      | false, true, false => 0x40#8
      | false, true, true => 0x60#8
      | true, false, false => 0x80#8
      | true, false, true => 0xA0#8
      | true, true, false => 0xC0#8
      | true, true, true => 0xE0#8) ∧
    (extract p = 0x00#8 ↔ p.r.toNat % 2 = 0 ∧ p.g.toNat % 2 = 0 ∧ p.b.toNat % 2 = 0)

/-- 40_bit_layout R94 (the spec marks it derived): extract after embed keeps the top three bits only; the byte survives iff
its low five bits are zero, and reads as the sentinel iff it is at most 0x1F. -/
def Obligations.ExtractOfEmbed : Prop :=
  ∀ (m : Byte) (p : Pixel),
    extract (embed m p) = m &&& 0xE0#8 ∧
    (extract (embed m p) = m ↔ m &&& 0x1F#8 = 0#8) ∧
    (extract (embed m p) = 0x00#8 ↔ m.toNat ≤ 0x1F)

/-- 40_bit_layout R95 (the spec marks it derived): a channel moves by the table's 0, +1 or -1 and never wraps: an even
channel that takes a 1 goes up by one, an odd one that takes a 0 goes down by one, any other stays. -/
def Obligations.EmbedChannelBound : Prop :=
  ∀ (m : Byte) (p : Pixel),
    (∀ c c' e, (c, c', e) ∈ [(p.r, (embed m p).r, m.getLsbD 7), (p.g, (embed m p).g, m.getLsbD 6),
        (p.b, (embed m p).b, m.getLsbD 5)] →
      (c'.toNat : Int) - c.toNat =
        (if c.toNat % 2 = 0 then (if e then 1 else 0) else (if e then 0 else -1)) ∧
      (c'.toNat % 2 = 0 ↔ e = false))

/-- 40_bit_layout R96 (the spec marks it derived), (a) to (e): EMBED reads only the stored bits and is idempotent. -/
def Obligations.EmbedLaws : Prop :=
  ∀ (m n : Byte) (p : Pixel),
    embed m p = embed (m &&& 0xE0#8) p ∧
    (embed m p = embed n p ↔ m &&& 0xE0#8 = n &&& 0xE0#8) ∧
    embed m (embed n p) = embed m p ∧
    embed (extract p) p = p ∧
    (embed m p = p ↔ extract p = m &&& 0xE0#8)

/-! ### The pixel steps -/

/-- 41_encoder R114, ENC_PIX, with 20_memory R54's order of accesses (the trace is the model's own record of them, log 15):
the whole next state. `0 <= I <= LEN` and `LEN < W*H` is what R114 says holds when the step is enabled. The pixel at
(I mod W, I div W) is stored to and no other. -/
def Obligations.EncodePixelStep : Prop :=
  ∀ s : State, s.seq = .enc → s.i ≤ s.len → s.len < s.w * s.h → ScriptWaits s →
    let x := s.i % s.w
    let y := s.i / s.w
    let byte := if s.i < s.len then msgByte s s.i else 0x00#8
    let p := pixelAt s x y
    ∃ t, step s = .next t ∧
      t = { s with
        m := byte, pr := p.r, pg := p.g, pb := p.b
        grid := t.grid
        seq := if s.i = s.len then .halt else .enc
        i := s.i + 1
        trace := s.trace ++ (if s.i < s.len then [.msgRead s.i byte] else []) ++
          [.gridRead x y p, .gridWrite x y (embed byte p)] } ∧
      pixelAt t x y = embed byte p ∧
      ∀ x' y', (x', y') ≠ (x, y) → pixelAt t x' y' = pixelAt s x' y'

/-- 42_decoder R143, DEC_PIX, with 20_memory R54's order of accesses (the trace is the model's own record of them, log 15):
the whole next state in each of the three cases; GRID is never written. `I <= W*H` holds in DEC (10_state R29). -/
def Obligations.DecodePixelStep : Prop :=
  ∀ s : State, s.seq = .dec → s.i ≤ s.w * s.h → ScriptWaits s →
    let x := s.i % s.w
    let y := s.i / s.w
    let p := pixelAt s x y
    let byte := extract p
    step s = .next
      (if s.i = s.w * s.h then { s with err := .unterminated, seq := .halt }
       else if byte = 0x00#8 then
         { s with
           m := byte, pr := p.r, pg := p.g, pb := p.b
           seq := .halt
           i := s.i + 1
           trace := s.trace ++ [.gridRead x y p] }
       else
         { s with
           m := byte, pr := p.r, pg := p.g, pb := p.b
           out := s.out ++ [byte]
           i := s.i + 1
           trace := s.trace ++ [.gridRead x y p, .outAppend byte] })

/-- What a busy block leaves: MSG, W, H, LEN, the open parameters, the script and the model's own records but the trace; in DEC also GRID; in ENC
also OUT and ERR; and in both every pixel but the one visited, and of that one the cover bits 7:1. 10_state R29 items 6 and
7, 60_exceptions R183, 42_decoder R146, 40_bit_layout R97. -/
def Obligations.PixelStepFrame : Prop :=
  ∀ s t : State, busy s = true → ScriptWaits s → step s = .next t →
    t.msg = s.msg ∧ t.w = s.w ∧ t.h = s.h ∧ t.len = s.len ∧ t.cfg = s.cfg ∧ t.pending = s.pending ∧
    t.portWord = s.portWord ∧ t.readback = s.readback ∧ t.launch = s.launch ∧
    (s.seq = .dec → t.grid = s.grid) ∧
    (s.seq = .enc → t.out = s.out ∧ t.err = s.err) ∧
    (∀ x y, (x, y) ≠ (scanX s.w s.i, scanY s.w s.i) → pixelAt t x y = pixelAt s x y) ∧
    (∀ x y k, 0 < k →
      (pixelAt t x y).r.getLsbD k = (pixelAt s x y).r.getLsbD k ∧
      (pixelAt t x y).g.getLsbD k = (pixelAt s x y).g.getLsbD k ∧
      (pixelAt t x y).b.getLsbD k = (pixelAt s x y).b.getLsbD k)

/-- The working registers after an ENC_PIX step are what the step's data words transfer one by one: a payload byte to M and
the three channels of the pixel to PR, PG, PB (10_state R13, 41_encoder R114). It ties the standalone meaning the model
gives data words (log 1) to the step. -/
def Obligations.DataWordsMakeTheStepsTransfers : Prop :=
  ∀ (s t : State), s.seq = .enc → s.i < s.len → s.len < s.w * s.h → ScriptWaits s → step s = .next t →
    ∃ im ir ig ib sm sr sg u,
      decode { port := .msg, bits := msgByte s s.i } = .ok im ∧
      decode { port := .laneR, bits := (pixelOfIndex s s.i).r } = .ok ir ∧
      decode { port := .laneG, bits := (pixelOfIndex s s.i).g } = .ok ig ∧
      decode { port := .laneB, bits := (pixelOfIndex s s.i).b } = .ok ib ∧
      exec im s = .next sm ∧ exec ir sm = .next sr ∧ exec ig sr = .next sg ∧ exec ib sg = .next u ∧
      u.m = t.m ∧ u.pr = t.pr ∧ u.pg = t.pg ∧ u.pb = t.pb

/-- 20_memory R50: from a state that meets the invariant no step faults, and every access a step adds to the trace is in
range: pixels inside W by H, message bytes below LEN. -/
def Obligations.CoreStaysInRange : Prop :=
  ∀ s : State, Inv s →
    (∀ r, step s ≠ .fault r) ∧
    (∀ t, step s = .next t → ∃ added, t.trace = s.trace ++ added ∧ ∀ a ∈ added,
      match a with
      | .msgRead k _ => k < s.len
      | .gridRead x y _ => x < s.w ∧ y < s.h
      | .gridWrite x y _ => x < s.w ∧ y < s.h
      | .outAppend _ => True)

/-! ### The spaces -/

/-- A space in canonical form, GRID or MSG, stays so when written, reads back what was written, and keeps every other key
(20_memory R53, 10_state R24, R25). The form itself is the model's (log 16). -/
def Obligations.CanonicalWriteReadsBack : Prop :=
  (∀ (d : Pixel) (m : Memory Pixel) (a : Nat) (v : Pixel), Memory.wf d m →
    Memory.wf d (Memory.write d m a v) ∧
    Memory.read d (Memory.write d m a v) a = v ∧
    ∀ a', a' ≠ a → Memory.read d (Memory.write d m a v) a' = Memory.read d m a') ∧
  (∀ (d : Byte) (m : Memory Byte) (a : Nat) (v : Byte), Memory.wf d m →
    Memory.wf d (Memory.write d m a v) ∧
    Memory.read d (Memory.write d m a v) a = v ∧
    ∀ a', a' ≠ a → Memory.read d (Memory.write d m a v) a' = Memory.read d m a')

/-- Two spaces in canonical form that read alike everywhere are the same data, for MSG and for GRID. The form is the
model's (log 16). -/
def Obligations.EqualReadsEqualSpaces : Prop :=
  (∀ m m' : Memory Byte, Memory.wf blankByte m → Memory.wf blankByte m' →
    (∀ a, Memory.read blankByte m a = Memory.read blankByte m' a) → m = m') ∧
  (∀ m m' : Memory Pixel, Memory.wf blankPixel m → Memory.wf blankPixel m' →
    (∀ a, Memory.read blankPixel m a = Memory.read blankPixel m' a) → m = m')

/-- 20_memory R43: raster index to coordinate and back is a bijection between the indices below W*H and the cells. -/
def Obligations.RasterIndexBijection : Prop :=
  (∀ w h i, i < w * h →
    scanX w i < w ∧ scanY w i < h ∧ scanIndex w (scanX w i) (scanY w i) = i) ∧
  (∀ w h x y, x < w → y < h →
    scanIndex w x y < w * h ∧ scanX w (scanIndex w x y) = x ∧ scanY w (scanIndex w x y) = y)

/-- 30_encoding R80: the `GRID` line loads W, H and W*H pixels in raster order, and the `MSG` line LEN bytes, each in one
step of a block that is not busy; the spaces then read as those sequences. The new dimensions may be any, in IDLE and after
an operation alike (70_reset R203, R204, R208). A `GRID` line with another number of pixels is refused: the model's choice
(log 12). -/
def Obligations.ScriptLinesLoadTheSpaces : Prop :=
  (∀ (s : State) (w h : Nat) (ps : List Pixel) (rest : List HostMove),
    NextLines s (.loadGrid w h ps :: rest) → busy s = false →
      (ps.length = w * h →
        ∃ t, step s = .next t ∧ t = { s with pending := rest, w := w, h := h, grid := t.grid } ∧ gridList t = ps) ∧
      (ps.length ≠ w * h → step s = .refused .malformedLoad)) ∧
  (∀ (s : State) (bs : List Byte) (rest : List HostMove),
    NextLines s (.loadMsg bs :: rest) → busy s = false →
      ∃ t, step s = .next t ∧ t = { s with pending := rest, len := bs.length, msg := t.msg } ∧ msgList t = bs)

/-- 10_state R24, R25, 93 U9: while not busy the host writes and reads single cells; an access outside GRID or MSG is
refused by name (log 12). -/
def Obligations.HostCellAccess : Prop :=
  ∀ (s : State) (rest : List HostMove), busy s = false →
    (∀ x y p, NextLines s (.setPixel x y p :: rest) →
      (x < s.w ∧ y < s.h → ∃ t, step s = .next t ∧ t = { s with pending := rest, grid := t.grid } ∧
        pixelAt t x y = p ∧ ∀ x' y', (x', y') ≠ (x, y) → pixelAt t x' y' = pixelAt s x' y') ∧
      (¬ (x < s.w ∧ y < s.h) → step s = .refused .hostOutOfRange)) ∧
    (∀ x y, NextLines s (.getPixel x y :: rest) →
      (x < s.w ∧ y < s.h → step s = .next { s with pending := rest, readback := .pixel (pixelAt s x y) }) ∧
      (¬ (x < s.w ∧ y < s.h) → step s = .refused .hostOutOfRange)) ∧
    (∀ k b, NextLines s (.setMsg k b :: rest) →
      (k < s.len → ∃ t, step s = .next t ∧ t = { s with pending := rest, msg := t.msg } ∧
        msgByte t k = b ∧ ∀ k', k' ≠ k → msgByte t k' = msgByte s k') ∧
      (¬ k < s.len → step s = .refused .hostOutOfRange)) ∧
    (∀ k, NextLines s (.getMsg k :: rest) →
      (k < s.len → step s = .next { s with pending := rest, readback := .byte (msgByte s k) }) ∧
      (¬ k < s.len → step s = .refused .hostOutOfRange))

/-- 10_state R19 to R23, R26: what the host reads by name while not busy: STATUS, I, OLEN and OUT; W, H and LEN it presents,
of any size, in IDLE and in HALT (70_reset R203, R204, R208).
That it also reads W, H and LEN back is the model's reading, CMD has no read port and STATUS, I, OLEN no write port: refused
by name (log 19). What a read
answers stands in the readback, the model's own field (log 15). A CMD write by name is not said here. -/
def Obligations.RegisterAccessByName : Prop :=
  ∀ (s : State) (rest : List HostMove), busy s = false →
    (∀ r, NextLines s (.readReg r :: rest) → step s =
      match r with
      | .cmd => .refused .noReadPort
      | .status => .next { s with pending := rest, readback := .status (statusOf s) }
      | .i => .next { s with pending := rest, readback := .count s.i }
      | .olen => .next { s with pending := rest, readback := .count s.out.length }
      | .w => .next { s with pending := rest, readback := .count s.w }
      | .h => .next { s with pending := rest, readback := .count s.h }
      | .len => .next { s with pending := rest, readback := .count s.len }) ∧
    (∀ r v, NextLines s (.writeReg r v :: rest) → r ≠ .cmd → step s =
      match r with
      | .w => .next { s with pending := rest, w := v }
      | .h => .next { s with pending := rest, h := v }
      | .len => .next { s with pending := rest, len := v }
      | _ => .refused .noWritePort) ∧
    (NextLines s (.readOut :: rest) → step s = .next { s with pending := rest, readback := .bytes s.out })

/-- 10_state R23 (REGMAP "any injective map", 92): under an injective map an access at a register's bus address is the
access by its name, and a CMD write by name is the command word of its value. -/
def Obligations.BusAccessIsAccessByName : Prop :=
  ∀ (s : State) (r : RegName) (v : Nat), s.cfg.regmap.injective →
    hostAct (.busRead (s.cfg.regmap.addr r)) s = hostAct (.readReg r) s ∧
    hostAct (.busWrite (s.cfg.regmap.addr r) v) s = hostAct (.writeReg r v) s ∧
    (v < 4 → hostAct (.writeReg .cmd v) s = hostAct (.word { port := .cmd, bits := BitVec.ofNat 8 v }) s)

/-! ### Reset -/

/-- 10_state R28: the values the spec gives for reset. (The values it leaves unspecified are the model's, log 6 to 8, and
are not stated.) With no line in the script the block waits in IDLE. -/
def Obligations.ResetValues : Prop :=
  State.reset.seq = .idle ∧ State.reset.err = .none ∧ State.reset.i = 0 ∧ State.reset.out = [] ∧
  busy State.reset = false ∧ done State.reset = false ∧ statusOf State.reset = 0b0000#4 ∧ olen State.reset = 0 ∧
  step State.reset = .next State.reset

/-- 70_reset R200, R201: a reset works in every state, busy or not: STATE = IDLE, ERR = 0, I = 0, OUT = []; GRID, MSG and
the host's inputs are not touched, so an interrupted encode leaves GRID as it stood. Nothing is said of the scratch
registers, which R28 leaves unspecified, and of the model's own record of launches (log 17). -/
def Obligations.ResetAtAnyTime : Prop :=
  ∀ (s : State) (rest : List HostMove), NextLines s (.reset :: rest) →
    ∃ t, step s = .next t ∧
      t = { s with
        seq := .idle, err := .none, i := 0, out := [], pending := rest
        m := t.m, pr := t.pr, pg := t.pg, pb := t.pb, launch := t.launch }

/-! ### Invariants -/

/-- The invariant of 10_state R29 (items 1 to 5, W and H of item 1 being the launch's, log 17), R26 and the canonical form of
the spaces (log 16) holds at reset. -/
def Obligations.InvAtReset : Prop := Inv State.reset

/-- Every step keeps the invariant of 10_state R29 (items 1 to 5), R26 and the canonical form of the spaces (log 16), from
every state that meets it. W and H of item 1 and of R26 are those of the launch that I or OUT comes from, and in an operation
the ones that stand: the model's reading of "the launch arguments" (log 17). The clause of item 2 that no operation has run
since reset is what IDLE means and is not stored (log 17). -/
def Obligations.StepKeepsInv : Prop :=
  ∀ s t : State, Inv s → step s = .next t → Inv t

/-- 10_state R14, R26, R29 items 1 and 6, R11, 70_reset R206. From a state that meets the invariant, after every step I and
OLEN are within the grid of the launch they come from, I is within W*H in an operation, and a step that leaves W and H keeps
`I <= W*H` and `OLEN <= W*H`. W and H change only by a host move that presents them, never in an operation. The launch on
record changes only by a reset or by a CMD write, which records W and H as they stand, with no word put on a port from outside
(log 21). That R29 means the launch's W and H is the model's reading, and the record its own (log 17). -/
def Obligations.ScanIndexStaysInGrid : Prop :=
  (∀ s t : State, Inv s → step s = .next t →
    t.i ≤ t.launch.w * t.launch.h ∧ olen t ≤ t.launch.outW * t.launch.outH ∧
    (busy t = true → t.i ≤ t.w * t.h ∧ t.w = t.launch.w ∧ t.h = t.launch.h) ∧
    (t.w = s.w → t.h = s.h →
      (s.i ≤ s.w * s.h → t.i ≤ t.w * t.h) ∧ (olen s ≤ s.w * s.h → olen t ≤ t.w * t.h))) ∧
  (∀ s t : State, step s = .next t → ¬ (t.w = s.w ∧ t.h = s.h) →
    busy s = false ∧ s.portWord = none ∧ s.pending.head?.any (presentsDimensions s.cfg) = true) ∧
  (∀ s t : State, s.portWord = none → step s = .next t → t.launch ≠ s.launch →
    s.pending.head? = some .reset ∨
      (busy s = false ∧ s.pending.head?.any (commandWrite s.cfg) = true ∧ t.launch.w = s.w ∧ t.launch.h = s.h))

/-- 10_state R16, 60_exceptions R178, R183: how STATE changes in a step that is no reset, with no word put on a port from
outside (log 21). IDLE is never entered, and left only by a CMD write; ENC is entered only by a CMD write passing the capacity
check, and left only for HALT after the terminator; DEC only by a CMD write that clears OUT, and left only for HALT, on a
sentinel or on exhaustion; HALT is left only by a CMD write. -/
def Obligations.SequencerTransitions : Prop :=
  ∀ s t : State, s.portWord = none → step s = .next t → s.pending.head? ≠ some .reset →
    (t.seq = .idle → s.seq = .idle) ∧
    (s.seq = .idle → t.seq ≠ .idle → s.pending.head?.any (commandWrite s.cfg) = true) ∧
    (t.seq = .enc → s.seq ≠ .enc → busy s = false ∧ s.pending.head?.any (commandWrite s.cfg) = true ∧
      s.len + 1 ≤ s.w * s.h ∧ t.err = .none ∧ t.i = 0) ∧
    (t.seq = .dec → s.seq ≠ .dec → busy s = false ∧ s.pending.head?.any (commandWrite s.cfg) = true ∧
      t.err = .none ∧ t.i = 0 ∧ t.out = []) ∧
    (s.seq = .halt → t.seq ≠ .halt → s.pending.head?.any (commandWrite s.cfg) = true) ∧
    (s.seq = .enc → t.seq ≠ .enc → t.seq = .halt ∧ s.i = s.len ∧ t.i = s.len + 1) ∧
    (s.seq = .dec → t.seq ≠ .dec → t.seq = .halt ∧
      ((s.i = s.w * s.h ∧ t.err = .unterminated) ∨ (extract (pixelOfIndex s s.i) = 0x00#8 ∧ t.i = s.i + 1)))

/-- 10_state R18, 60_exceptions R172, R175, R178: ERR changes only by a reset, by a CMD write in IDLE or HALT (which leaves
I = 0), or to UNTERMINATED by the pixel step that starts with I = W*H in DEC; whenever it changes to an error, STATE is
HALT. No word is put on a port from outside (log 21). -/
def Obligations.ErrorRegisterChanges : Prop :=
  ∀ s t : State, s.portWord = none → step s = .next t → t.err ≠ s.err →
    (t.err ≠ .none → t.seq = .halt) ∧
    (s.pending.head? = some .reset ∨
      (busy s = false ∧ s.pending.head?.any (commandWrite s.cfg) = true ∧ t.i = 0) ∨
      (s.seq = .dec ∧ t.err = .unterminated ∧ s.i = s.w * s.h))

/-! ### Whole operations -/

/-- 41_encoder R118, R119: an ENCODE that does not fit takes exactly one transition: ERR = 1, I = 0, HALT, and nothing else
changes but the line taken off the script (of the model's own record of launches, log 17, nothing is said). -/
def Obligations.EncodeCapacityFailure : Prop :=
  ∀ (s : State) (rest : List HostMove), (s.seq = .idle ∨ s.seq = .halt) →
    indexFits s.cfg (s.w * s.h) = true → indexFits s.cfg s.len = true → s.len + 1 > s.w * s.h →
    NextLines s (.word { port := .cmd, bits := 0b01#8 } :: rest) →
    ∃ t, step s = .next t ∧ t = { s with pending := rest, err := .capacity, i := 0, seq := .halt, launch := t.launch }

/-- 41_encoder R119 (the spec marks it derived), R112, R117: from any state in IDLE or HALT an admitted ENCODE takes exactly
LEN + 2 transitions, busy in between, and ends in HALT with ERR = 0, I = LEN + 1 and GRID as ENCODE_FN gives it; MSG, OUT,
W, H, LEN are unchanged. -/
def Obligations.EncodeRunIsEncodeFn : Prop :=
  ∀ (s : State) (rest : List HostMove), (s.seq = .idle ∨ s.seq = .halt) →
    indexFits s.cfg (s.w * s.h) = true → indexFits s.cfg s.len = true → s.len + 1 ≤ s.w * s.h →
    NextLines s (.word { port := .cmd, bits := 0b01#8 } :: rest) → (∀ mv ∈ rest.head?, waitsForDone s.cfg mv = true) →
    (∀ k, 0 < k → k < s.len + 2 → ∃ u, run k s = .next u ∧ busy u = true) ∧
    ∃ t, run (s.len + 2) s = .next t ∧
      t.seq = .halt ∧ t.err = .none ∧ t.i = s.len + 1 ∧
      encodeFn s.w s.h (gridList s) (msgList s) = (gridList t, .none) ∧
      t.msg = s.msg ∧ t.out = s.out ∧ t.w = s.w ∧ t.h = s.h ∧ t.len = s.len ∧ t.pending = rest

/-- 41_encoder R117 items 2 to 4: what an admitted ENCODE leaves in GRID, pixel by pixel: index k < LEN holds EMBED of the
k-th message byte, index LEN the terminator, every other pixel of the grid is bit-identical. -/
def Obligations.EncodePostconditions : Prop :=
  ∀ (s : State) (rest : List HostMove), (s.seq = .idle ∨ s.seq = .halt) →
    indexFits s.cfg (s.w * s.h) = true → indexFits s.cfg s.len = true → s.len + 1 ≤ s.w * s.h →
    NextLines s (.word { port := .cmd, bits := 0b01#8 } :: rest) → (∀ mv ∈ rest.head?, waitsForDone s.cfg mv = true) →
    ∃ t, run (s.len + 2) s = .next t ∧
      (∀ k, k < s.len → pixelOfIndex t k = embed (msgByte s k) (pixelOfIndex s k) ∧
        extract (pixelOfIndex t k) = msgByte s k &&& 0xE0#8) ∧
      pixelOfIndex t s.len = embed 0x00#8 (pixelOfIndex s s.len) ∧
      extract (pixelOfIndex t s.len) = 0x00#8 ∧
      (∀ k, s.len < k → k < s.w * s.h → pixelOfIndex t k = pixelOfIndex s k)

/-- 70_reset R213, 20_memory R42, R52, R54: the accesses of an admitted ENCODE, in order: for each index 0 to LEN, once each,
the message byte (below LEN), the pixel read, the pixel written. So LEN + 1 grid reads and writes, LEN message reads, no
append. The trace is the model's own record (log 15). -/
def Obligations.EncodeAccessSequence : Prop :=
  ∀ (s : State) (rest : List HostMove), (s.seq = .idle ∨ s.seq = .halt) →
    indexFits s.cfg (s.w * s.h) = true → indexFits s.cfg s.len = true → s.len + 1 ≤ s.w * s.h →
    NextLines s (.word { port := .cmd, bits := 0b01#8 } :: rest) → (∀ mv ∈ rest.head?, waitsForDone s.cfg mv = true) →
    ∃ t, run (s.len + 2) s = .next t ∧
      t.trace = s.trace ++ (List.range (s.len + 1)).flatMap fun k =>
        (if k < s.len then [Access.msgRead k (msgByte s k)] else []) ++
          [.gridRead (k % s.w) (k / s.w) (pixelOfIndex s k),
           .gridWrite (k % s.w) (k / s.w)
             (embed (if k < s.len then msgByte s k else 0x00#8) (pixelOfIndex s k))]

/-- 42_decoder R149 (the spec marks it derived), R142, R146: from any state in IDLE or HALT a DECODE whose first all-even pixel
has index n takes exactly n + 2 transitions and ends in HALT with ERR = 0, I = n + 1 and the n bytes before it in OUT; with
no such pixel it takes W*H + 2 and ends with UNTERMINATED, I = OLEN = W*H. Either way (ERR, OUT) is DECODE_FN's, GRID and MSG
are unchanged, and the block is busy in between. -/
def Obligations.DecodeRunIsDecodeFn : Prop :=
  ∀ (s : State) (rest : List HostMove), (s.seq = .idle ∨ s.seq = .halt) →
    indexFits s.cfg (s.w * s.h) = true →
    NextLines s (.word { port := .cmd, bits := 0b10#8 } :: rest) → (∀ mv ∈ rest.head?, waitsForDone s.cfg mv = true) →
    (∀ n, n < s.w * s.h → (∀ j, j < n → extract (pixelOfIndex s j) ≠ 0x00#8) → extract (pixelOfIndex s n) = 0x00#8 →
      (∀ k, 0 < k → k < n + 2 → ∃ u, run k s = .next u ∧ busy u = true) ∧
      ∃ t, run (n + 2) s = .next t ∧ t.seq = .halt ∧ t.err = .none ∧ t.i = n + 1 ∧
        t.out = (List.range n).map (fun k => extract (pixelOfIndex s k)) ∧
        decodeFn (gridList s) = (t.err, t.out) ∧
        t.grid = s.grid ∧ t.msg = s.msg ∧ t.w = s.w ∧ t.h = s.h ∧ t.len = s.len ∧ t.pending = rest) ∧
    ((∀ j, j < s.w * s.h → extract (pixelOfIndex s j) ≠ 0x00#8) →
      (∀ k, 0 < k → k < s.w * s.h + 2 → ∃ u, run k s = .next u ∧ busy u = true) ∧
      ∃ t, run (s.w * s.h + 2) s = .next t ∧ t.seq = .halt ∧ t.err = .unterminated ∧ t.i = s.w * s.h ∧
        t.out = (List.range (s.w * s.h)).map (fun k => extract (pixelOfIndex s k)) ∧
        decodeFn (gridList s) = (t.err, t.out) ∧
        t.grid = s.grid ∧ t.msg = s.msg ∧ t.w = s.w ∧ t.h = s.h ∧ t.len = s.len ∧ t.pending = rest)

/-- 70_reset R213, 20_memory R42, R54: the accesses of a DECODE, in order. With its sentinel at index n: each pixel 0 to n read
once, each but the last followed by its append. With no sentinel: each of the W*H pixels read once, each followed by its
append. No grid write and no message read either way. The trace is the model's own record (log 15). -/
def Obligations.DecodeAccessSequence : Prop :=
  ∀ (s : State) (rest : List HostMove), (s.seq = .idle ∨ s.seq = .halt) →
    indexFits s.cfg (s.w * s.h) = true →
    NextLines s (.word { port := .cmd, bits := 0b10#8 } :: rest) → (∀ mv ∈ rest.head?, waitsForDone s.cfg mv = true) →
    (∀ n, n < s.w * s.h → (∀ j, j < n → extract (pixelOfIndex s j) ≠ 0x00#8) → extract (pixelOfIndex s n) = 0x00#8 →
      ∃ t, run (n + 2) s = .next t ∧
        t.trace = s.trace ++ ((List.range n).flatMap fun k =>
            [Access.gridRead (k % s.w) (k / s.w) (pixelOfIndex s k), .outAppend (extract (pixelOfIndex s k))]) ++
          [.gridRead (n % s.w) (n / s.w) (pixelOfIndex s n)]) ∧
    ((∀ j, j < s.w * s.h → extract (pixelOfIndex s j) ≠ 0x00#8) →
      ∃ t, run (s.w * s.h + 2) s = .next t ∧
        t.trace = s.trace ++ (List.range (s.w * s.h)).flatMap fun k =>
          [Access.gridRead (k % s.w) (k / s.w) (pixelOfIndex s k), .outAppend (extract (pixelOfIndex s k))])

/-- 70_reset R215 (the spec marks it derived): from any busy state that meets the invariant the block halts, in at most
W*H + 1 further transitions, whatever lines wait in the script. -/
def Obligations.BusyBlockHalts : Prop :=
  ∀ s : State, Inv s → busy s = true → ScriptWaits s →
    ∃ n t, n ≤ s.w * s.h + 1 ∧ run n s = .next t ∧ t.seq = .halt

/-! ### Round trip -/

/-- 42_decoder R147 (the spec marks it derived): for every grid and every admitted message, decoding the encoded grid succeeds
and returns the masked message up to its first zero element. -/
def Obligations.RoundTripOfFunctions : Prop :=
  ∀ (w h : Nat) (g : List Pixel) (msg : List Byte), g.length = w * h → msg.length + 1 ≤ w * h →
    decodeFn (encodeFn w h g msg).1 =
      (.none, (msg.map (fun m => m &&& 0xE0#8)).takeWhile (fun m => m != 0x00#8))

/-- 42_decoder R147: the decoded message is the message itself exactly when every byte is one of the seven non-zero multiples
of 0x20. -/
def Obligations.RoundTripExactIff : Prop :=
  ∀ (w h : Nat) (g : List Pixel) (msg : List Byte), g.length = w * h → msg.length + 1 ≤ w * h →
    (decodeFn (encodeFn w h g msg).1 = (.none, msg) ↔
      ∀ m ∈ msg, m ∈ [0x20#8, 0x40#8, 0x60#8, 0x80#8, 0xA0#8, 0xC0#8, 0xE0#8])

/-- The false variant that 95_test_vectors property 7 asks to refute (doc00's own claim, conflict C3): that a message with no
zero byte comes back as it was. -/
def Obligations.SourceRoundTripClaim : Prop :=
  ∀ (w h : Nat) (g : List Pixel) (msg : List Byte), g.length = w * h → msg.length + 1 ≤ w * h → 0x00#8 ∉ msg →
    decodeFn (encodeFn w h g msg).1 = (.none, msg)

/-- 42_decoder R147 on the machine: the two-line program ENCODE, DECODE (30_encoding R81) from any state in IDLE or HALT with
an admitted message ends, in exactly LEN + OLEN + 4 transitions, in HALT with ERR = 0 and in OUT the masked message up to its
first zero element. -/
def Obligations.RoundTripOfProgram : Prop :=
  ∀ s : State, (s.seq = .idle ∨ s.seq = .halt) →
    indexFits s.cfg (s.w * s.h) = true → indexFits s.cfg s.len = true → s.len + 1 ≤ s.w * s.h →
    NextLines s [.word { port := .cmd, bits := 0b01#8 }, .word { port := .cmd, bits := 0b10#8 }] →
    let k := ((msgList s).map (fun m => m &&& 0xE0#8)).takeWhile (fun m => m != 0x00#8)
    ∃ t, run (s.len + k.length + 4) s = .next t ∧
      t.seq = .halt ∧ t.err = .none ∧ t.out = k ∧ t.i = k.length + 1 ∧ t.pending = []

/-- 70_reset R209 (the spec marks it derived): the first message byte below 0x20 cuts the decoded message just before it,
with no error. -/
def Obligations.InBandTerminatorCutsMessage : Prop :=
  ∀ (w h : Nat) (g : List Pixel) (before : List Byte) (m : Byte) (after : List Byte),
    g.length = w * h → (before ++ m :: after).length + 1 ≤ w * h →
    (∀ b ∈ before, 0x20 ≤ b.toNat) → m.toNat < 0x20 →
    decodeFn (encodeFn w h g (before ++ m :: after)).1 = (.none, before.map (fun b => b &&& 0xE0#8))

/-- 20_memory R53 (the spec marks it derived): running the same ENCODE twice gives the same grid as running it once. -/
def Obligations.EncodeIsIdempotent : Prop :=
  ∀ (w h : Nat) (g : List Pixel) (msg : List Byte),
    encodeFn w h (encodeFn w h g msg).1 msg = encodeFn w h g msg

/-- 40_bit_layout R99: two messages whose bytes agree after masking with 0xE0 produce identical grids, on every grid. -/
def Obligations.DroppedBitsDoNotReachTheGrid : Prop :=
  ∀ (w h : Nat) (g : List Pixel) (msg msg' : List Byte),
    msg.map (fun m => m &&& 0xE0#8) = msg'.map (fun m => m &&& 0xE0#8) →
    encodeFn w h g msg = encodeFn w h g msg'

/-- 70_reset R202 (the spec marks it derived): every command starts clean. Two states in IDLE or HALT that agree on the inputs
(W, H, GRID, for ENCODE LEN and MSG, and the open parameters) are taken by the same command word to states that agree on
STATE, ERR, I and GRID, and after DECODE on OUT. -/
def Obligations.CommandsStartClean : Prop :=
  ∀ (s s' t t' : State) (i : Instr), (encode i).port = .cmd →
    s.w = s'.w → s.h = s'.h → s.grid = s'.grid → s.cfg = s'.cfg →
    (i = .cmdEncode → s.len = s'.len ∧ s.msg = s'.msg) →
    exec i s = .next t → exec i s' = .next t' →
    t.seq = t'.seq ∧ t.err = t'.err ∧ t.i = t'.i ∧ t.grid = t'.grid ∧ (i = .cmdDecode → t.out = t'.out)

/-- 70_reset R200, 93 U12: a reset after the start step and `k` pixel steps of an admitted ENCODE (the host lets `k`
transitions pass, log 5) leaves the block in IDLE with pixels 0 to k - 1 written and every other pixel of the grid as it was. -/
def Obligations.ResetInterruptsEncode : Prop :=
  ∀ (s : State) (k : Nat), (s.seq = .idle ∨ s.seq = .halt) →
    indexFits s.cfg (s.w * s.h) = true → indexFits s.cfg s.len = true → s.len + 1 ≤ s.w * s.h → k ≤ s.len →
    NextLines s (.word { port := .cmd, bits := 0b01#8 } :: (List.replicate k .pass ++ [.reset])) →
    ∃ t, run (k + 2) s = .next t ∧ t.seq = .idle ∧ t.err = .none ∧ t.i = 0 ∧ t.out = [] ∧ t.pending = [] ∧
      t.msg = s.msg ∧ t.w = s.w ∧ t.h = s.h ∧ t.len = s.len ∧
      ∀ j, j < s.w * s.h → pixelOfIndex t j =
        if j < k then embed (msgByte s j) (pixelOfIndex s j) else pixelOfIndex s j

/-- 30_encoding R70, 40_bit_layout R92: a decode reads nothing but the carrier bits: two grids whose channels agree in bit 0
decode alike, whatever their cover bits. -/
def Obligations.DecodeReadsCarrierBitsOnly : Prop :=
  ∀ g g' : List Pixel, g.length = g'.length →
    (∀ k (h : k < g.length) (h' : k < g'.length),
      g[k].r.getLsbD 0 = g'[k].r.getLsbD 0 ∧
      g[k].g.getLsbD 0 = g'[k].g.getLsbD 0 ∧
      g[k].b.getLsbD 0 = g'[k].b.getLsbD 0) →
    decodeFn g = decodeFn g'

/-- 42_decoder R144, 70_reset R212: pixels after the first all-even pixel cannot affect the result: what an older, longer
message left there does no harm. -/
def Obligations.PixelsAfterSentinelIgnored : Prop :=
  ∀ (before : List Pixel) (p : Pixel) (after after' : List Pixel), extract p = 0x00#8 →
    decodeFn (before ++ p :: after) = decodeFn (before ++ p :: after')

/-! ### The working registers -/

/-- 10_state R13, R28: M, PR, PG and PB are the core's own. With no word put on a port from outside, a step that changes them is
a reset or a pixel step of a busy block: no host move writes them. No step puts a word on a port (log 21). And whatever they
hold, every step leaves all the rest of the state the same: nothing reads a value left in them. (What a data word does
alone, and their value after reset, are the model's choice: log 1, log 6.) -/
def Obligations.WorkingRegistersAreTheCores : Prop :=
  State.reset.portWord = none ∧
  (∀ s t : State, step s = .next t → t.portWord = none) ∧
  (∀ s t : State, s.portWord = none → s.pending.head? ≠ some .reset → step s = .next t →
    ¬ (t.m = s.m ∧ t.pr = s.pr ∧ t.pg = s.pg ∧ t.pb = s.pb) →
    busy s = true ∧ coreStep { s with pending := t.pending } = .next t) ∧
  (∀ (s t : State) (m pr pg pb : Byte), step s = .next t →
    ∃ m' pr' pg' pb', step { s with m := m, pr := pr, pg := pg, pb := pb } =
      .next { t with m := m', pr := pr', pg := pg', pb := pb' })
end

