-- ==== Sys2Proof/Laws/Layout.lean ====
section
/-! SUPPORT. EMBED and EXTRACT bit by bit, and the raster index map. -/

namespace Sys2Proof.Machine

/-- Bit 0 of an embedded channel is the embedded bit. -/
theorem embedChannel_bit_zero (c m : Byte) (k : Nat) :
    (embedChannel c (payloadBit m k)).getLsbD 0 = m.getLsbD k := by
  simp [embedChannel, clearMask, payloadBit]

/-- The cover bits of an embedded channel are the channel's own. -/
theorem embedChannel_cover (c m : Byte) (k : Nat) {j : Nat} (hj : 0 < j) :
    (embedChannel c (payloadBit m k)).getLsbD j = c.getLsbD j := by
  by_cases h : j < 8
  · have : j = 1 ∨ j = 2 ∨ j = 3 ∨ j = 4 ∨ j = 5 ∨ j = 6 ∨ j = 7 := by omega
    rcases this with rfl | rfl | rfl | rfl | rfl | rfl | rfl <;>
      simp [embedChannel, clearMask, payloadBit]
  · rw [BitVec.getLsbD_of_ge _ _ (by omega), BitVec.getLsbD_of_ge _ _ (by omega)]

/-- EXTRACT puts the three carrier bits at 7, 6, 5 and zeros below. -/
theorem extract_getLsbD (p : Pixel) (j : Nat) :
    (extract p).getLsbD j =
      if j = 7 then p.r.getLsbD 0 else if j = 6 then p.g.getLsbD 0 else if j = 5 then p.b.getLsbD 0
      else false := by
  by_cases h : j < 8
  · have : j = 0 ∨ j = 1 ∨ j = 2 ∨ j = 3 ∨ j = 4 ∨ j = 5 ∨ j = 6 ∨ j = 7 := by omega
    rcases this with rfl | rfl | rfl | rfl | rfl | rfl | rfl | rfl <;> simp [extract, carrierBit]
  · rw [BitVec.getLsbD_of_ge _ _ (by omega)]
    simp only [show j ≠ 7 by omega, show j ≠ 6 by omega, show j ≠ 5 by omega, if_false]

/-- The mask KEEP, bit by bit. -/
theorem and_keepMask_getLsbD (m : Byte) (j : Nat) :
    (m &&& keepMask).getLsbD j = if j = 7 ∨ j = 6 ∨ j = 5 then m.getLsbD j else false := by
  by_cases h : j < 8
  · have : j = 0 ∨ j = 1 ∨ j = 2 ∨ j = 3 ∨ j = 4 ∨ j = 5 ∨ j = 6 ∨ j = 7 := by omega
    rcases this with rfl | rfl | rfl | rfl | rfl | rfl | rfl | rfl <;> simp [keepMask]
  · rw [BitVec.getLsbD_of_ge _ _ (by omega)]
    simp only [show j ≠ 7 by omega, show j ≠ 6 by omega, show j ≠ 5 by omega, or_self, if_false]

theorem admits_iff (w h len : Nat) : admits w h len = true ↔ len + 1 ≤ w * h := by
  simp [admits, pixelCount]

theorem pixelCount_eq (w h : Nat) : pixelCount w h = w * h := rfl

/-- An index in the grid has an in-range coordinate pair. -/
theorem scan_in_range {w h i : Nat} (hi : i < pixelCount w h) : scanX w i < w ∧ scanY w i < h := by
  unfold pixelCount at hi
  have hw : 0 < w := by
    rcases Nat.eq_zero_or_pos w with rfl | hw
    · simp at hi
    · exact hw
  exact ⟨Nat.mod_lt _ hw, (Nat.div_lt_iff_lt_mul hw).2 (by rwa [Nat.mul_comm])⟩

/-- Different indices have different coordinate pairs. -/
theorem scan_inj {w i j : Nat} (hx : scanX w i = scanX w j) (hy : scanY w i = scanY w j) : i = j := by
  unfold scanX at hx
  unfold scanY at hy
  rw [← Nat.div_add_mod i w, ← Nat.div_add_mod j w, hx, hy]

end Sys2Proof.Machine
end

