-- ==== Sys2Proof/Laws/State.lean ====
section
/-! SUPPORT. One lemma per field per state update, each true by rfl: no later proof unfolds a record update. -/

namespace Sys2Proof.Machine

/-! `note` -/

@[simp] theorem note_seq (a : Access) (s : State) : (note a s).seq = s.seq := rfl
@[simp] theorem note_err (a : Access) (s : State) : (note a s).err = s.err := rfl
@[simp] theorem note_i (a : Access) (s : State) : (note a s).i = s.i := rfl
@[simp] theorem note_out (a : Access) (s : State) : (note a s).out = s.out := rfl
@[simp] theorem note_grid (a : Access) (s : State) : (note a s).grid = s.grid := rfl
@[simp] theorem note_msg (a : Access) (s : State) : (note a s).msg = s.msg := rfl
@[simp] theorem note_w (a : Access) (s : State) : (note a s).w = s.w := rfl
@[simp] theorem note_h (a : Access) (s : State) : (note a s).h = s.h := rfl
@[simp] theorem note_len (a : Access) (s : State) : (note a s).len = s.len := rfl
@[simp] theorem note_m (a : Access) (s : State) : (note a s).m = s.m := rfl
@[simp] theorem note_pr (a : Access) (s : State) : (note a s).pr = s.pr := rfl
@[simp] theorem note_pg (a : Access) (s : State) : (note a s).pg = s.pg := rfl
@[simp] theorem note_pb (a : Access) (s : State) : (note a s).pb = s.pb := rfl
@[simp] theorem note_cfg (a : Access) (s : State) : (note a s).cfg = s.cfg := rfl
@[simp] theorem note_launch (a : Access) (s : State) : (note a s).launch = s.launch := rfl
@[simp] theorem note_pending (a : Access) (s : State) : (note a s).pending = s.pending := rfl
@[simp] theorem note_portWord (a : Access) (s : State) : (note a s).portWord = s.portWord := rfl
@[simp] theorem note_readback (a : Access) (s : State) : (note a s).readback = s.readback := rfl
@[simp] theorem note_trace (a : Access) (s : State) : (note a s).trace = s.trace ++ [a] := rfl

/-! `loadM` -/

@[simp] theorem loadM_seq (b : Byte) (s : State) : (loadM b s).seq = s.seq := rfl
@[simp] theorem loadM_err (b : Byte) (s : State) : (loadM b s).err = s.err := rfl
@[simp] theorem loadM_i (b : Byte) (s : State) : (loadM b s).i = s.i := rfl
@[simp] theorem loadM_out (b : Byte) (s : State) : (loadM b s).out = s.out := rfl
@[simp] theorem loadM_grid (b : Byte) (s : State) : (loadM b s).grid = s.grid := rfl
@[simp] theorem loadM_msg (b : Byte) (s : State) : (loadM b s).msg = s.msg := rfl
@[simp] theorem loadM_w (b : Byte) (s : State) : (loadM b s).w = s.w := rfl
@[simp] theorem loadM_h (b : Byte) (s : State) : (loadM b s).h = s.h := rfl
@[simp] theorem loadM_len (b : Byte) (s : State) : (loadM b s).len = s.len := rfl
@[simp] theorem loadM_m (b : Byte) (s : State) : (loadM b s).m = b := rfl
@[simp] theorem loadM_pr (b : Byte) (s : State) : (loadM b s).pr = s.pr := rfl
@[simp] theorem loadM_pg (b : Byte) (s : State) : (loadM b s).pg = s.pg := rfl
@[simp] theorem loadM_pb (b : Byte) (s : State) : (loadM b s).pb = s.pb := rfl
@[simp] theorem loadM_cfg (b : Byte) (s : State) : (loadM b s).cfg = s.cfg := rfl
@[simp] theorem loadM_launch (b : Byte) (s : State) : (loadM b s).launch = s.launch := rfl
@[simp] theorem loadM_pending (b : Byte) (s : State) : (loadM b s).pending = s.pending := rfl
@[simp] theorem loadM_portWord (b : Byte) (s : State) : (loadM b s).portWord = s.portWord := rfl
@[simp] theorem loadM_readback (b : Byte) (s : State) : (loadM b s).readback = s.readback := rfl
@[simp] theorem loadM_trace (b : Byte) (s : State) : (loadM b s).trace = s.trace := rfl

/-! `loadPR` -/

@[simp] theorem loadPR_seq (b : Byte) (s : State) : (loadPR b s).seq = s.seq := rfl
@[simp] theorem loadPR_err (b : Byte) (s : State) : (loadPR b s).err = s.err := rfl
@[simp] theorem loadPR_i (b : Byte) (s : State) : (loadPR b s).i = s.i := rfl
@[simp] theorem loadPR_out (b : Byte) (s : State) : (loadPR b s).out = s.out := rfl
@[simp] theorem loadPR_grid (b : Byte) (s : State) : (loadPR b s).grid = s.grid := rfl
@[simp] theorem loadPR_msg (b : Byte) (s : State) : (loadPR b s).msg = s.msg := rfl
@[simp] theorem loadPR_w (b : Byte) (s : State) : (loadPR b s).w = s.w := rfl
@[simp] theorem loadPR_h (b : Byte) (s : State) : (loadPR b s).h = s.h := rfl
@[simp] theorem loadPR_len (b : Byte) (s : State) : (loadPR b s).len = s.len := rfl
@[simp] theorem loadPR_m (b : Byte) (s : State) : (loadPR b s).m = s.m := rfl
@[simp] theorem loadPR_pr (b : Byte) (s : State) : (loadPR b s).pr = b := rfl
@[simp] theorem loadPR_pg (b : Byte) (s : State) : (loadPR b s).pg = s.pg := rfl
@[simp] theorem loadPR_pb (b : Byte) (s : State) : (loadPR b s).pb = s.pb := rfl
@[simp] theorem loadPR_cfg (b : Byte) (s : State) : (loadPR b s).cfg = s.cfg := rfl
@[simp] theorem loadPR_launch (b : Byte) (s : State) : (loadPR b s).launch = s.launch := rfl
@[simp] theorem loadPR_pending (b : Byte) (s : State) : (loadPR b s).pending = s.pending := rfl
@[simp] theorem loadPR_portWord (b : Byte) (s : State) : (loadPR b s).portWord = s.portWord := rfl
@[simp] theorem loadPR_readback (b : Byte) (s : State) : (loadPR b s).readback = s.readback := rfl
@[simp] theorem loadPR_trace (b : Byte) (s : State) : (loadPR b s).trace = s.trace := rfl

/-! `loadPG` -/

@[simp] theorem loadPG_seq (b : Byte) (s : State) : (loadPG b s).seq = s.seq := rfl
@[simp] theorem loadPG_err (b : Byte) (s : State) : (loadPG b s).err = s.err := rfl
@[simp] theorem loadPG_i (b : Byte) (s : State) : (loadPG b s).i = s.i := rfl
@[simp] theorem loadPG_out (b : Byte) (s : State) : (loadPG b s).out = s.out := rfl
@[simp] theorem loadPG_grid (b : Byte) (s : State) : (loadPG b s).grid = s.grid := rfl
@[simp] theorem loadPG_msg (b : Byte) (s : State) : (loadPG b s).msg = s.msg := rfl
@[simp] theorem loadPG_w (b : Byte) (s : State) : (loadPG b s).w = s.w := rfl
@[simp] theorem loadPG_h (b : Byte) (s : State) : (loadPG b s).h = s.h := rfl
@[simp] theorem loadPG_len (b : Byte) (s : State) : (loadPG b s).len = s.len := rfl
@[simp] theorem loadPG_m (b : Byte) (s : State) : (loadPG b s).m = s.m := rfl
@[simp] theorem loadPG_pr (b : Byte) (s : State) : (loadPG b s).pr = s.pr := rfl
@[simp] theorem loadPG_pg (b : Byte) (s : State) : (loadPG b s).pg = b := rfl
@[simp] theorem loadPG_pb (b : Byte) (s : State) : (loadPG b s).pb = s.pb := rfl
@[simp] theorem loadPG_cfg (b : Byte) (s : State) : (loadPG b s).cfg = s.cfg := rfl
@[simp] theorem loadPG_launch (b : Byte) (s : State) : (loadPG b s).launch = s.launch := rfl
@[simp] theorem loadPG_pending (b : Byte) (s : State) : (loadPG b s).pending = s.pending := rfl
@[simp] theorem loadPG_portWord (b : Byte) (s : State) : (loadPG b s).portWord = s.portWord := rfl
@[simp] theorem loadPG_readback (b : Byte) (s : State) : (loadPG b s).readback = s.readback := rfl
@[simp] theorem loadPG_trace (b : Byte) (s : State) : (loadPG b s).trace = s.trace := rfl

/-! `loadPB` -/

@[simp] theorem loadPB_seq (b : Byte) (s : State) : (loadPB b s).seq = s.seq := rfl
@[simp] theorem loadPB_err (b : Byte) (s : State) : (loadPB b s).err = s.err := rfl
@[simp] theorem loadPB_i (b : Byte) (s : State) : (loadPB b s).i = s.i := rfl
@[simp] theorem loadPB_out (b : Byte) (s : State) : (loadPB b s).out = s.out := rfl
@[simp] theorem loadPB_grid (b : Byte) (s : State) : (loadPB b s).grid = s.grid := rfl
@[simp] theorem loadPB_msg (b : Byte) (s : State) : (loadPB b s).msg = s.msg := rfl
@[simp] theorem loadPB_w (b : Byte) (s : State) : (loadPB b s).w = s.w := rfl
@[simp] theorem loadPB_h (b : Byte) (s : State) : (loadPB b s).h = s.h := rfl
@[simp] theorem loadPB_len (b : Byte) (s : State) : (loadPB b s).len = s.len := rfl
@[simp] theorem loadPB_m (b : Byte) (s : State) : (loadPB b s).m = s.m := rfl
@[simp] theorem loadPB_pr (b : Byte) (s : State) : (loadPB b s).pr = s.pr := rfl
@[simp] theorem loadPB_pg (b : Byte) (s : State) : (loadPB b s).pg = s.pg := rfl
@[simp] theorem loadPB_pb (b : Byte) (s : State) : (loadPB b s).pb = b := rfl
@[simp] theorem loadPB_cfg (b : Byte) (s : State) : (loadPB b s).cfg = s.cfg := rfl
@[simp] theorem loadPB_launch (b : Byte) (s : State) : (loadPB b s).launch = s.launch := rfl
@[simp] theorem loadPB_pending (b : Byte) (s : State) : (loadPB b s).pending = s.pending := rfl
@[simp] theorem loadPB_portWord (b : Byte) (s : State) : (loadPB b s).portWord = s.portWord := rfl
@[simp] theorem loadPB_readback (b : Byte) (s : State) : (loadPB b s).readback = s.readback := rfl
@[simp] theorem loadPB_trace (b : Byte) (s : State) : (loadPB b s).trace = s.trace := rfl

/-! `msgRead` -/

@[simp] theorem msgRead_seq (k : Nat) (s : State) : (msgRead k s).seq = s.seq := rfl
@[simp] theorem msgRead_err (k : Nat) (s : State) : (msgRead k s).err = s.err := rfl
@[simp] theorem msgRead_i (k : Nat) (s : State) : (msgRead k s).i = s.i := rfl
@[simp] theorem msgRead_out (k : Nat) (s : State) : (msgRead k s).out = s.out := rfl
@[simp] theorem msgRead_grid (k : Nat) (s : State) : (msgRead k s).grid = s.grid := rfl
@[simp] theorem msgRead_msg (k : Nat) (s : State) : (msgRead k s).msg = s.msg := rfl
@[simp] theorem msgRead_w (k : Nat) (s : State) : (msgRead k s).w = s.w := rfl
@[simp] theorem msgRead_h (k : Nat) (s : State) : (msgRead k s).h = s.h := rfl
@[simp] theorem msgRead_len (k : Nat) (s : State) : (msgRead k s).len = s.len := rfl
@[simp] theorem msgRead_m (k : Nat) (s : State) : (msgRead k s).m = msgByte s k := rfl
@[simp] theorem msgRead_pr (k : Nat) (s : State) : (msgRead k s).pr = s.pr := rfl
@[simp] theorem msgRead_pg (k : Nat) (s : State) : (msgRead k s).pg = s.pg := rfl
@[simp] theorem msgRead_pb (k : Nat) (s : State) : (msgRead k s).pb = s.pb := rfl
@[simp] theorem msgRead_cfg (k : Nat) (s : State) : (msgRead k s).cfg = s.cfg := rfl
@[simp] theorem msgRead_launch (k : Nat) (s : State) : (msgRead k s).launch = s.launch := rfl
@[simp] theorem msgRead_pending (k : Nat) (s : State) : (msgRead k s).pending = s.pending := rfl
@[simp] theorem msgRead_portWord (k : Nat) (s : State) : (msgRead k s).portWord = s.portWord := rfl
@[simp] theorem msgRead_readback (k : Nat) (s : State) : (msgRead k s).readback = s.readback := rfl
@[simp] theorem msgRead_trace (k : Nat) (s : State) : (msgRead k s).trace = s.trace ++ [.msgRead k (msgByte s k)] := rfl

/-! `gridRead` -/

@[simp] theorem gridRead_seq (x y : Nat) (s : State) : (gridRead x y s).seq = s.seq := rfl
@[simp] theorem gridRead_err (x y : Nat) (s : State) : (gridRead x y s).err = s.err := rfl
@[simp] theorem gridRead_i (x y : Nat) (s : State) : (gridRead x y s).i = s.i := rfl
@[simp] theorem gridRead_out (x y : Nat) (s : State) : (gridRead x y s).out = s.out := rfl
@[simp] theorem gridRead_grid (x y : Nat) (s : State) : (gridRead x y s).grid = s.grid := rfl
@[simp] theorem gridRead_msg (x y : Nat) (s : State) : (gridRead x y s).msg = s.msg := rfl
@[simp] theorem gridRead_w (x y : Nat) (s : State) : (gridRead x y s).w = s.w := rfl
@[simp] theorem gridRead_h (x y : Nat) (s : State) : (gridRead x y s).h = s.h := rfl
@[simp] theorem gridRead_len (x y : Nat) (s : State) : (gridRead x y s).len = s.len := rfl
@[simp] theorem gridRead_m (x y : Nat) (s : State) : (gridRead x y s).m = s.m := rfl
@[simp] theorem gridRead_pr (x y : Nat) (s : State) : (gridRead x y s).pr = (pixelAt s x y).r := rfl
@[simp] theorem gridRead_pg (x y : Nat) (s : State) : (gridRead x y s).pg = (pixelAt s x y).g := rfl
@[simp] theorem gridRead_pb (x y : Nat) (s : State) : (gridRead x y s).pb = (pixelAt s x y).b := rfl
@[simp] theorem gridRead_cfg (x y : Nat) (s : State) : (gridRead x y s).cfg = s.cfg := rfl
@[simp] theorem gridRead_launch (x y : Nat) (s : State) : (gridRead x y s).launch = s.launch := rfl
@[simp] theorem gridRead_pending (x y : Nat) (s : State) : (gridRead x y s).pending = s.pending := rfl
@[simp] theorem gridRead_portWord (x y : Nat) (s : State) : (gridRead x y s).portWord = s.portWord := rfl
@[simp] theorem gridRead_readback (x y : Nat) (s : State) : (gridRead x y s).readback = s.readback := rfl
@[simp] theorem gridRead_trace (x y : Nat) (s : State) : (gridRead x y s).trace = s.trace ++ [.gridRead x y (pixelAt s x y)] := rfl

/-! `putPixel` -/

@[simp] theorem putPixel_seq (x y : Nat) (p : Pixel) (s : State) : (putPixel x y p s).seq = s.seq := rfl
@[simp] theorem putPixel_err (x y : Nat) (p : Pixel) (s : State) : (putPixel x y p s).err = s.err := rfl
@[simp] theorem putPixel_i (x y : Nat) (p : Pixel) (s : State) : (putPixel x y p s).i = s.i := rfl
@[simp] theorem putPixel_out (x y : Nat) (p : Pixel) (s : State) : (putPixel x y p s).out = s.out := rfl
@[simp] theorem putPixel_grid (x y : Nat) (p : Pixel) (s : State) : (putPixel x y p s).grid = Memory.write blankPixel s.grid (cellKey x y) p := rfl
@[simp] theorem putPixel_msg (x y : Nat) (p : Pixel) (s : State) : (putPixel x y p s).msg = s.msg := rfl
@[simp] theorem putPixel_w (x y : Nat) (p : Pixel) (s : State) : (putPixel x y p s).w = s.w := rfl
@[simp] theorem putPixel_h (x y : Nat) (p : Pixel) (s : State) : (putPixel x y p s).h = s.h := rfl
@[simp] theorem putPixel_len (x y : Nat) (p : Pixel) (s : State) : (putPixel x y p s).len = s.len := rfl
@[simp] theorem putPixel_m (x y : Nat) (p : Pixel) (s : State) : (putPixel x y p s).m = s.m := rfl
@[simp] theorem putPixel_pr (x y : Nat) (p : Pixel) (s : State) : (putPixel x y p s).pr = s.pr := rfl
@[simp] theorem putPixel_pg (x y : Nat) (p : Pixel) (s : State) : (putPixel x y p s).pg = s.pg := rfl
@[simp] theorem putPixel_pb (x y : Nat) (p : Pixel) (s : State) : (putPixel x y p s).pb = s.pb := rfl
@[simp] theorem putPixel_cfg (x y : Nat) (p : Pixel) (s : State) : (putPixel x y p s).cfg = s.cfg := rfl
@[simp] theorem putPixel_launch (x y : Nat) (p : Pixel) (s : State) : (putPixel x y p s).launch = s.launch := rfl
@[simp] theorem putPixel_pending (x y : Nat) (p : Pixel) (s : State) : (putPixel x y p s).pending = s.pending := rfl
@[simp] theorem putPixel_portWord (x y : Nat) (p : Pixel) (s : State) : (putPixel x y p s).portWord = s.portWord := rfl
@[simp] theorem putPixel_readback (x y : Nat) (p : Pixel) (s : State) : (putPixel x y p s).readback = s.readback := rfl
@[simp] theorem putPixel_trace (x y : Nat) (p : Pixel) (s : State) : (putPixel x y p s).trace = s.trace := rfl

/-! `gridWrite` -/

@[simp] theorem gridWrite_seq (x y : Nat) (p : Pixel) (s : State) : (gridWrite x y p s).seq = s.seq := rfl
@[simp] theorem gridWrite_err (x y : Nat) (p : Pixel) (s : State) : (gridWrite x y p s).err = s.err := rfl
@[simp] theorem gridWrite_i (x y : Nat) (p : Pixel) (s : State) : (gridWrite x y p s).i = s.i := rfl
@[simp] theorem gridWrite_out (x y : Nat) (p : Pixel) (s : State) : (gridWrite x y p s).out = s.out := rfl
@[simp] theorem gridWrite_grid (x y : Nat) (p : Pixel) (s : State) : (gridWrite x y p s).grid = Memory.write blankPixel s.grid (cellKey x y) p := rfl
@[simp] theorem gridWrite_msg (x y : Nat) (p : Pixel) (s : State) : (gridWrite x y p s).msg = s.msg := rfl
@[simp] theorem gridWrite_w (x y : Nat) (p : Pixel) (s : State) : (gridWrite x y p s).w = s.w := rfl
@[simp] theorem gridWrite_h (x y : Nat) (p : Pixel) (s : State) : (gridWrite x y p s).h = s.h := rfl
@[simp] theorem gridWrite_len (x y : Nat) (p : Pixel) (s : State) : (gridWrite x y p s).len = s.len := rfl
@[simp] theorem gridWrite_m (x y : Nat) (p : Pixel) (s : State) : (gridWrite x y p s).m = s.m := rfl
@[simp] theorem gridWrite_pr (x y : Nat) (p : Pixel) (s : State) : (gridWrite x y p s).pr = s.pr := rfl
@[simp] theorem gridWrite_pg (x y : Nat) (p : Pixel) (s : State) : (gridWrite x y p s).pg = s.pg := rfl
@[simp] theorem gridWrite_pb (x y : Nat) (p : Pixel) (s : State) : (gridWrite x y p s).pb = s.pb := rfl
@[simp] theorem gridWrite_cfg (x y : Nat) (p : Pixel) (s : State) : (gridWrite x y p s).cfg = s.cfg := rfl
@[simp] theorem gridWrite_launch (x y : Nat) (p : Pixel) (s : State) : (gridWrite x y p s).launch = s.launch := rfl
@[simp] theorem gridWrite_pending (x y : Nat) (p : Pixel) (s : State) : (gridWrite x y p s).pending = s.pending := rfl
@[simp] theorem gridWrite_portWord (x y : Nat) (p : Pixel) (s : State) : (gridWrite x y p s).portWord = s.portWord := rfl
@[simp] theorem gridWrite_readback (x y : Nat) (p : Pixel) (s : State) : (gridWrite x y p s).readback = s.readback := rfl
@[simp] theorem gridWrite_trace (x y : Nat) (p : Pixel) (s : State) : (gridWrite x y p s).trace = s.trace ++ [.gridWrite x y p] := rfl

/-! `outAppend` -/

@[simp] theorem outAppend_seq (v : Byte) (s : State) : (outAppend v s).seq = s.seq := rfl
@[simp] theorem outAppend_err (v : Byte) (s : State) : (outAppend v s).err = s.err := rfl
@[simp] theorem outAppend_i (v : Byte) (s : State) : (outAppend v s).i = s.i := rfl
@[simp] theorem outAppend_out (v : Byte) (s : State) : (outAppend v s).out = s.out ++ [v] := rfl
@[simp] theorem outAppend_grid (v : Byte) (s : State) : (outAppend v s).grid = s.grid := rfl
@[simp] theorem outAppend_msg (v : Byte) (s : State) : (outAppend v s).msg = s.msg := rfl
@[simp] theorem outAppend_w (v : Byte) (s : State) : (outAppend v s).w = s.w := rfl
@[simp] theorem outAppend_h (v : Byte) (s : State) : (outAppend v s).h = s.h := rfl
@[simp] theorem outAppend_len (v : Byte) (s : State) : (outAppend v s).len = s.len := rfl
@[simp] theorem outAppend_m (v : Byte) (s : State) : (outAppend v s).m = s.m := rfl
@[simp] theorem outAppend_pr (v : Byte) (s : State) : (outAppend v s).pr = s.pr := rfl
@[simp] theorem outAppend_pg (v : Byte) (s : State) : (outAppend v s).pg = s.pg := rfl
@[simp] theorem outAppend_pb (v : Byte) (s : State) : (outAppend v s).pb = s.pb := rfl
@[simp] theorem outAppend_cfg (v : Byte) (s : State) : (outAppend v s).cfg = s.cfg := rfl
@[simp] theorem outAppend_launch (v : Byte) (s : State) : (outAppend v s).launch = s.launch := rfl
@[simp] theorem outAppend_pending (v : Byte) (s : State) : (outAppend v s).pending = s.pending := rfl
@[simp] theorem outAppend_portWord (v : Byte) (s : State) : (outAppend v s).portWord = s.portWord := rfl
@[simp] theorem outAppend_readback (v : Byte) (s : State) : (outAppend v s).readback = s.readback := rfl
@[simp] theorem outAppend_trace (v : Byte) (s : State) : (outAppend v s).trace = s.trace ++ [.outAppend v] := rfl

/-! `setSeq` -/

@[simp] theorem setSeq_seq (v : Seq) (s : State) : (setSeq v s).seq = v := rfl
@[simp] theorem setSeq_err (v : Seq) (s : State) : (setSeq v s).err = s.err := rfl
@[simp] theorem setSeq_i (v : Seq) (s : State) : (setSeq v s).i = s.i := rfl
@[simp] theorem setSeq_out (v : Seq) (s : State) : (setSeq v s).out = s.out := rfl
@[simp] theorem setSeq_grid (v : Seq) (s : State) : (setSeq v s).grid = s.grid := rfl
@[simp] theorem setSeq_msg (v : Seq) (s : State) : (setSeq v s).msg = s.msg := rfl
@[simp] theorem setSeq_w (v : Seq) (s : State) : (setSeq v s).w = s.w := rfl
@[simp] theorem setSeq_h (v : Seq) (s : State) : (setSeq v s).h = s.h := rfl
@[simp] theorem setSeq_len (v : Seq) (s : State) : (setSeq v s).len = s.len := rfl
@[simp] theorem setSeq_m (v : Seq) (s : State) : (setSeq v s).m = s.m := rfl
@[simp] theorem setSeq_pr (v : Seq) (s : State) : (setSeq v s).pr = s.pr := rfl
@[simp] theorem setSeq_pg (v : Seq) (s : State) : (setSeq v s).pg = s.pg := rfl
@[simp] theorem setSeq_pb (v : Seq) (s : State) : (setSeq v s).pb = s.pb := rfl
@[simp] theorem setSeq_cfg (v : Seq) (s : State) : (setSeq v s).cfg = s.cfg := rfl
@[simp] theorem setSeq_launch (v : Seq) (s : State) : (setSeq v s).launch = s.launch := rfl
@[simp] theorem setSeq_pending (v : Seq) (s : State) : (setSeq v s).pending = s.pending := rfl
@[simp] theorem setSeq_portWord (v : Seq) (s : State) : (setSeq v s).portWord = s.portWord := rfl
@[simp] theorem setSeq_readback (v : Seq) (s : State) : (setSeq v s).readback = s.readback := rfl
@[simp] theorem setSeq_trace (v : Seq) (s : State) : (setSeq v s).trace = s.trace := rfl

/-! `setI` -/

@[simp] theorem setI_seq (v : Nat) (s : State) : (setI v s).seq = s.seq := rfl
@[simp] theorem setI_err (v : Nat) (s : State) : (setI v s).err = s.err := rfl
@[simp] theorem setI_i (v : Nat) (s : State) : (setI v s).i = v := rfl
@[simp] theorem setI_out (v : Nat) (s : State) : (setI v s).out = s.out := rfl
@[simp] theorem setI_grid (v : Nat) (s : State) : (setI v s).grid = s.grid := rfl
@[simp] theorem setI_msg (v : Nat) (s : State) : (setI v s).msg = s.msg := rfl
@[simp] theorem setI_w (v : Nat) (s : State) : (setI v s).w = s.w := rfl
@[simp] theorem setI_h (v : Nat) (s : State) : (setI v s).h = s.h := rfl
@[simp] theorem setI_len (v : Nat) (s : State) : (setI v s).len = s.len := rfl
@[simp] theorem setI_m (v : Nat) (s : State) : (setI v s).m = s.m := rfl
@[simp] theorem setI_pr (v : Nat) (s : State) : (setI v s).pr = s.pr := rfl
@[simp] theorem setI_pg (v : Nat) (s : State) : (setI v s).pg = s.pg := rfl
@[simp] theorem setI_pb (v : Nat) (s : State) : (setI v s).pb = s.pb := rfl
@[simp] theorem setI_cfg (v : Nat) (s : State) : (setI v s).cfg = s.cfg := rfl
@[simp] theorem setI_launch (v : Nat) (s : State) : (setI v s).launch = s.launch := rfl
@[simp] theorem setI_pending (v : Nat) (s : State) : (setI v s).pending = s.pending := rfl
@[simp] theorem setI_portWord (v : Nat) (s : State) : (setI v s).portWord = s.portWord := rfl
@[simp] theorem setI_readback (v : Nat) (s : State) : (setI v s).readback = s.readback := rfl
@[simp] theorem setI_trace (v : Nat) (s : State) : (setI v s).trace = s.trace := rfl

/-! `clearOut` -/

@[simp] theorem clearOut_seq (s : State) : (clearOut s).seq = s.seq := rfl
@[simp] theorem clearOut_err (s : State) : (clearOut s).err = s.err := rfl
@[simp] theorem clearOut_i (s : State) : (clearOut s).i = s.i := rfl
@[simp] theorem clearOut_out (s : State) : (clearOut s).out = [] := rfl
@[simp] theorem clearOut_grid (s : State) : (clearOut s).grid = s.grid := rfl
@[simp] theorem clearOut_msg (s : State) : (clearOut s).msg = s.msg := rfl
@[simp] theorem clearOut_w (s : State) : (clearOut s).w = s.w := rfl
@[simp] theorem clearOut_h (s : State) : (clearOut s).h = s.h := rfl
@[simp] theorem clearOut_len (s : State) : (clearOut s).len = s.len := rfl
@[simp] theorem clearOut_m (s : State) : (clearOut s).m = s.m := rfl
@[simp] theorem clearOut_pr (s : State) : (clearOut s).pr = s.pr := rfl
@[simp] theorem clearOut_pg (s : State) : (clearOut s).pg = s.pg := rfl
@[simp] theorem clearOut_pb (s : State) : (clearOut s).pb = s.pb := rfl
@[simp] theorem clearOut_cfg (s : State) : (clearOut s).cfg = s.cfg := rfl
@[simp] theorem clearOut_launch (s : State) : (clearOut s).launch = { s.launch with outW := s.w, outH := s.h } := rfl
@[simp] theorem clearOut_pending (s : State) : (clearOut s).pending = s.pending := rfl
@[simp] theorem clearOut_portWord (s : State) : (clearOut s).portWord = s.portWord := rfl
@[simp] theorem clearOut_readback (s : State) : (clearOut s).readback = s.readback := rfl
@[simp] theorem clearOut_trace (s : State) : (clearOut s).trace = s.trace := rfl

/-! `raise` -/

@[simp] theorem raise_seq (e : ErrCode) (s : State) : (raise e s).seq = .halt := rfl
@[simp] theorem raise_err (e : ErrCode) (s : State) : (raise e s).err = e := rfl
@[simp] theorem raise_i (e : ErrCode) (s : State) : (raise e s).i = s.i := rfl
@[simp] theorem raise_out (e : ErrCode) (s : State) : (raise e s).out = s.out := rfl
@[simp] theorem raise_grid (e : ErrCode) (s : State) : (raise e s).grid = s.grid := rfl
@[simp] theorem raise_msg (e : ErrCode) (s : State) : (raise e s).msg = s.msg := rfl
@[simp] theorem raise_w (e : ErrCode) (s : State) : (raise e s).w = s.w := rfl
@[simp] theorem raise_h (e : ErrCode) (s : State) : (raise e s).h = s.h := rfl
@[simp] theorem raise_len (e : ErrCode) (s : State) : (raise e s).len = s.len := rfl
@[simp] theorem raise_m (e : ErrCode) (s : State) : (raise e s).m = s.m := rfl
@[simp] theorem raise_pr (e : ErrCode) (s : State) : (raise e s).pr = s.pr := rfl
@[simp] theorem raise_pg (e : ErrCode) (s : State) : (raise e s).pg = s.pg := rfl
@[simp] theorem raise_pb (e : ErrCode) (s : State) : (raise e s).pb = s.pb := rfl
@[simp] theorem raise_cfg (e : ErrCode) (s : State) : (raise e s).cfg = s.cfg := rfl
@[simp] theorem raise_launch (e : ErrCode) (s : State) : (raise e s).launch = s.launch := rfl
@[simp] theorem raise_pending (e : ErrCode) (s : State) : (raise e s).pending = s.pending := rfl
@[simp] theorem raise_portWord (e : ErrCode) (s : State) : (raise e s).portWord = s.portWord := rfl
@[simp] theorem raise_readback (e : ErrCode) (s : State) : (raise e s).readback = s.readback := rfl
@[simp] theorem raise_trace (e : ErrCode) (s : State) : (raise e s).trace = s.trace := rfl

/-! `beginCommand` -/

@[simp] theorem beginCommand_seq (s : State) : (beginCommand s).seq = s.seq := rfl
@[simp] theorem beginCommand_err (s : State) : (beginCommand s).err = .none := rfl
@[simp] theorem beginCommand_i (s : State) : (beginCommand s).i = 0 := rfl
@[simp] theorem beginCommand_out (s : State) : (beginCommand s).out = s.out := rfl
@[simp] theorem beginCommand_grid (s : State) : (beginCommand s).grid = s.grid := rfl
@[simp] theorem beginCommand_msg (s : State) : (beginCommand s).msg = s.msg := rfl
@[simp] theorem beginCommand_w (s : State) : (beginCommand s).w = s.w := rfl
@[simp] theorem beginCommand_h (s : State) : (beginCommand s).h = s.h := rfl
@[simp] theorem beginCommand_len (s : State) : (beginCommand s).len = s.len := rfl
@[simp] theorem beginCommand_m (s : State) : (beginCommand s).m = s.m := rfl
@[simp] theorem beginCommand_pr (s : State) : (beginCommand s).pr = s.pr := rfl
@[simp] theorem beginCommand_pg (s : State) : (beginCommand s).pg = s.pg := rfl
@[simp] theorem beginCommand_pb (s : State) : (beginCommand s).pb = s.pb := rfl
@[simp] theorem beginCommand_cfg (s : State) : (beginCommand s).cfg = s.cfg := rfl
@[simp] theorem beginCommand_launch (s : State) : (beginCommand s).launch = { s.launch with w := s.w, h := s.h } := rfl
@[simp] theorem beginCommand_pending (s : State) : (beginCommand s).pending = s.pending := rfl
@[simp] theorem beginCommand_portWord (s : State) : (beginCommand s).portWord = s.portWord := rfl
@[simp] theorem beginCommand_readback (s : State) : (beginCommand s).readback = s.readback := rfl
@[simp] theorem beginCommand_trace (s : State) : (beginCommand s).trace = s.trace := rfl

/-! `resetBlock` -/

@[simp] theorem resetBlock_seq (s : State) : (resetBlock s).seq = .idle := rfl
@[simp] theorem resetBlock_err (s : State) : (resetBlock s).err = .none := rfl
@[simp] theorem resetBlock_i (s : State) : (resetBlock s).i = 0 := rfl
@[simp] theorem resetBlock_out (s : State) : (resetBlock s).out = [] := rfl
@[simp] theorem resetBlock_grid (s : State) : (resetBlock s).grid = s.grid := rfl
@[simp] theorem resetBlock_msg (s : State) : (resetBlock s).msg = s.msg := rfl
@[simp] theorem resetBlock_w (s : State) : (resetBlock s).w = s.w := rfl
@[simp] theorem resetBlock_h (s : State) : (resetBlock s).h = s.h := rfl
@[simp] theorem resetBlock_len (s : State) : (resetBlock s).len = s.len := rfl
@[simp] theorem resetBlock_m (s : State) : (resetBlock s).m = 0#8 := rfl
@[simp] theorem resetBlock_pr (s : State) : (resetBlock s).pr = 0#8 := rfl
@[simp] theorem resetBlock_pg (s : State) : (resetBlock s).pg = 0#8 := rfl
@[simp] theorem resetBlock_pb (s : State) : (resetBlock s).pb = 0#8 := rfl
@[simp] theorem resetBlock_cfg (s : State) : (resetBlock s).cfg = s.cfg := rfl
@[simp] theorem resetBlock_launch (s : State) : (resetBlock s).launch = Launch.none := rfl
@[simp] theorem resetBlock_pending (s : State) : (resetBlock s).pending = s.pending := rfl
@[simp] theorem resetBlock_portWord (s : State) : (resetBlock s).portWord = s.portWord := rfl
@[simp] theorem resetBlock_readback (s : State) : (resetBlock s).readback = s.readback := rfl
@[simp] theorem resetBlock_trace (s : State) : (resetBlock s).trace = s.trace := rfl

/-! `answer` -/

@[simp] theorem answer_seq (r : Readback) (s : State) : (answer r s).seq = s.seq := rfl
@[simp] theorem answer_err (r : Readback) (s : State) : (answer r s).err = s.err := rfl
@[simp] theorem answer_i (r : Readback) (s : State) : (answer r s).i = s.i := rfl
@[simp] theorem answer_out (r : Readback) (s : State) : (answer r s).out = s.out := rfl
@[simp] theorem answer_grid (r : Readback) (s : State) : (answer r s).grid = s.grid := rfl
@[simp] theorem answer_msg (r : Readback) (s : State) : (answer r s).msg = s.msg := rfl
@[simp] theorem answer_w (r : Readback) (s : State) : (answer r s).w = s.w := rfl
@[simp] theorem answer_h (r : Readback) (s : State) : (answer r s).h = s.h := rfl
@[simp] theorem answer_len (r : Readback) (s : State) : (answer r s).len = s.len := rfl
@[simp] theorem answer_m (r : Readback) (s : State) : (answer r s).m = s.m := rfl
@[simp] theorem answer_pr (r : Readback) (s : State) : (answer r s).pr = s.pr := rfl
@[simp] theorem answer_pg (r : Readback) (s : State) : (answer r s).pg = s.pg := rfl
@[simp] theorem answer_pb (r : Readback) (s : State) : (answer r s).pb = s.pb := rfl
@[simp] theorem answer_cfg (r : Readback) (s : State) : (answer r s).cfg = s.cfg := rfl
@[simp] theorem answer_launch (r : Readback) (s : State) : (answer r s).launch = s.launch := rfl
@[simp] theorem answer_pending (r : Readback) (s : State) : (answer r s).pending = s.pending := rfl
@[simp] theorem answer_portWord (r : Readback) (s : State) : (answer r s).portWord = s.portWord := rfl
@[simp] theorem answer_readback (r : Readback) (s : State) : (answer r s).readback = r := rfl
@[simp] theorem answer_trace (r : Readback) (s : State) : (answer r s).trace = s.trace := rfl

end Sys2Proof.Machine
end

