-- ==== Sys2Proof/Laws/Memory.lean ====
section
/-! SUPPORT. The laws of a space in canonical form, and of the keys of GRID. -/

namespace Sys2Proof.Machine

variable {α : Type}

@[simp] theorem Memory.read_nil (d : α) (a : Nat) : Memory.read d [] a = d := rfl

theorem Memory.read_cons (d : α) (c : Nat × α) (m : Memory α) (a : Nat) :
    Memory.read d (c :: m) a = if c.1 = a then c.2 else Memory.read d m a := rfl

/-- A key that no entry carries reads as the default. -/
theorem Memory.read_of_forall_ne (d : α) {m : Memory α} {a : Nat} (h : ∀ c ∈ m, c.1 ≠ a) :
    Memory.read d m a = d := by
  induction m with
  | nil => rfl
  | cons c m ih =>
    rw [Memory.read_cons, if_neg (h c (by simp)), ih fun c' hc' => h c' (by simp [hc'])]

theorem Memory.read_erase_self (d : α) (m : Memory α) (a : Nat) :
    Memory.read d (Memory.erase m a) a = d :=
  Memory.read_of_forall_ne d fun c hc => by simpa using (List.mem_filter.1 hc).2

theorem Memory.read_erase_of_ne (d : α) (m : Memory α) {a a' : Nat} (h : a' ≠ a) :
    Memory.read d (Memory.erase m a) a' = Memory.read d m a' := by
  induction m with
  | nil => rfl
  | cons c m ih =>
    unfold Memory.erase at ih ⊢
    rw [List.filter_cons]
    split
    · rw [Memory.read_cons, Memory.read_cons, ih]
    · rename_i hc
      have hc : c.1 = a := by simpa using hc
      rw [Memory.read_cons, if_neg (by omega), ih]

theorem Memory.read_put_self (d : α) (m : Memory α) (a : Nat) (v : α) :
    Memory.read d (Memory.put a v m) a = v := by
  induction m with
  | nil => simp [Memory.put, Memory.read_cons]
  | cons c m ih =>
    obtain ⟨k, u⟩ := c
    simp only [Memory.put]
    split
    · simp [Memory.read_cons]
    · split
      · simp [Memory.read_cons]
      · rename_i h
        rw [Memory.read_cons, if_neg (fun hk => h hk.symm), ih]

theorem Memory.read_put_of_ne (d : α) (m : Memory α) {a a' : Nat} (v : α) (h : a' ≠ a) :
    Memory.read d (Memory.put a v m) a' = Memory.read d m a' := by
  induction m with
  | nil => simp [Memory.put, Memory.read_cons, h.symm]
  | cons c m ih =>
    obtain ⟨k, u⟩ := c
    simp only [Memory.put]
    split
    · rw [Memory.read_cons, if_neg h.symm]
    · split
      · rename_i _ hk
        rw [Memory.read_cons, if_neg h.symm, Memory.read_cons, if_neg (by simpa [← hk] using h.symm)]
      · rw [Memory.read_cons, Memory.read_cons, ih]

theorem Memory.read_write_self [DecidableEq α] (d : α) (m : Memory α) (a : Nat) (v : α) :
    Memory.read d (Memory.write d m a v) a = v := by
  unfold Memory.write
  split
  · next h => rw [Memory.read_erase_self, h]
  · exact Memory.read_put_self d m a v

theorem Memory.read_write_of_ne [DecidableEq α] (d : α) (m : Memory α) {a a' : Nat} (v : α) (h : a' ≠ a) :
    Memory.read d (Memory.write d m a v) a' = Memory.read d m a' := by
  unfold Memory.write
  split
  · exact Memory.read_erase_of_ne d m h
  · exact Memory.read_put_of_ne d m v h

/-- An entry after a put is the new one or an old one. -/
theorem Memory.mem_put {m : Memory α} {a : Nat} {v : α} {c : Nat × α} (h : c ∈ Memory.put a v m) :
    c = (a, v) ∨ c ∈ m := by
  induction m with
  | nil => simpa [Memory.put] using h
  | cons e m ih =>
    obtain ⟨k, u⟩ := e
    simp only [Memory.put] at h
    split at h
    · simpa using h
    · split at h
      · rcases List.mem_cons.1 h with h | h
        · exact .inl h
        · exact .inr (by simp [h])
      · rcases List.mem_cons.1 h with h | h
        · exact .inr (by simp [h])
        · exact (ih h).imp_right fun h => by simp [h]

theorem Memory.put_rising {m : Memory α} (a : Nat) (v : α)
    (h : m.Pairwise fun c c' => c.1 < c'.1) : (Memory.put a v m).Pairwise fun c c' => c.1 < c'.1 := by
  induction m with
  | nil => simp [Memory.put]
  | cons e m ih =>
    obtain ⟨k, u⟩ := e
    obtain ⟨hk, hm⟩ := List.pairwise_cons.1 h
    simp only [Memory.put]
    split
    · next hlt =>
      refine List.pairwise_cons.2 ⟨fun c hc => ?_, h⟩
      rcases List.mem_cons.1 hc with rfl | hc
      · exact hlt
      · exact lt_trans hlt (hk c hc)
    · split
      · next heq => exact List.pairwise_cons.2 ⟨fun c hc => by simpa [heq] using hk c hc, hm⟩
      · refine List.pairwise_cons.2 ⟨fun c hc => ?_, ih hm⟩
        rcases Memory.mem_put hc with rfl | hc
        · show k < a
          omega
        · exact hk c hc

theorem Memory.write_wf [DecidableEq α] (d : α) {m : Memory α} (a : Nat) (v : α) (h : Memory.wf d m) :
    Memory.wf d (Memory.write d m a v) := by
  unfold Memory.write
  split
  · exact ⟨h.1.sublist List.filter_sublist, fun c hc => h.2 c (List.mem_of_mem_filter hc)⟩
  · next hv =>
    refine ⟨Memory.put_rising a v h.1, fun c hc => ?_⟩
    rcases Memory.mem_put hc with rfl | hc
    · exact hv
    · exact h.2 c hc

@[simp] theorem Memory.nil_wf (d : α) : Memory.wf d [] := by simp [Memory.wf]

/-- A listed key reads as its entry, in canonical form. -/
theorem Memory.read_of_mem (d : α) {m : Memory α} (h : m.Pairwise fun c c' => c.1 < c'.1)
    {c : Nat × α} (hc : c ∈ m) : Memory.read d m c.1 = c.2 := by
  induction m with
  | nil => simp at hc
  | cons e m ih =>
    obtain ⟨he, hm⟩ := List.pairwise_cons.1 h
    rcases List.mem_cons.1 hc with rfl | hc
    · simp [Memory.read_cons]
    · rw [Memory.read_cons, if_neg (he c hc).ne, ih hm hc]

@[simp] theorem cellKey_inj {x y x' y' : Nat} : cellKey x y = cellKey x' y' ↔ x = x' ∧ y = y' := by
  simp [cellKey, Nat.pair_eq_pair]

theorem cellKey_ne {x y x' y' : Nat} (h : (x', y') ≠ (x, y)) : cellKey x' y' ≠ cellKey x y := by
  simpa using h

/-- The pixel just put is read back. -/
@[simp] theorem pixelAt_putPixel_self (x y : Nat) (p : Pixel) (s : State) :
    pixelAt (putPixel x y p s) x y = p := Memory.read_write_self ..

/-- A pixel put leaves every other pixel. -/
theorem pixelAt_putPixel_of_ne {x y x' y' : Nat} (p : Pixel) (s : State) (h : (x', y') ≠ (x, y)) :
    pixelAt (putPixel x y p s) x' y' = pixelAt s x' y' :=
  Memory.read_write_of_ne _ _ _ (cellKey_ne h)

@[simp] theorem pixelAt_gridWrite_self (x y : Nat) (p : Pixel) (s : State) :
    pixelAt (gridWrite x y p s) x y = p := Memory.read_write_self ..

theorem pixelAt_gridWrite_of_ne {x y x' y' : Nat} (p : Pixel) (s : State) (h : (x', y') ≠ (x, y)) :
    pixelAt (gridWrite x y p s) x' y' = pixelAt s x' y' :=
  Memory.read_write_of_ne _ _ _ (cellKey_ne h)

/-- Reads of GRID depend on GRID alone. -/
theorem pixelAt_congr {s t : State} (h : t.grid = s.grid) (x y : Nat) : pixelAt t x y = pixelAt s x y := by
  simp [pixelAt, h]

/-- Reads of MSG depend on MSG alone. -/
theorem msgByte_congr {s t : State} (h : t.msg = s.msg) (k : Nat) : msgByte t k = msgByte s k := by
  simp [msgByte, h]

end Sys2Proof.Machine
end

