-- ==== Sys2Proof/Laws/Steps.lean ====
section
/-! SUPPORT. What a transition can do, said once for each operation: the pixel steps, the commands, the host's moves,
the step. Later proofs cite these and do not unfold the operations. -/

namespace Sys2Proof.Machine

/-! ### Range -/

/-- The range check of the pixel steps is the bound on the scan index (20_memory R50). -/
theorem inGrid_scan_iff (s : State) : inGrid s (scanX s.w s.i) (scanY s.w s.i) = true ↔ s.i < pixelCount s.w s.h := by
  constructor
  · intro h
    have h : scanX s.w s.i < s.w ∧ scanY s.w s.i < s.h := by simpa [inGrid] using h
    have hw : 0 < s.w := by omega
    have := (Nat.div_lt_iff_lt_mul hw).1 h.2
    rwa [pixelCount, Nat.mul_comm]
  · intro h
    simpa [inGrid] using scan_in_range h

theorem inGrid_iff (s : State) (x y : Nat) : inGrid s x y = true ↔ x < s.w ∧ y < s.h := by simp [inGrid]

/-! ### Pixel steps -/

/-- The byte an ENC_PIX step embeds. -/
def encByte (s : State) : Byte := if s.i < s.len then msgByte s s.i else sentinel

/-- The pixel a pixel step visits. -/
def visited (s : State) : Pixel := pixelAt s (scanX s.w s.i) (scanY s.w s.i)

/-- The accesses of an ENC_PIX step, in order (20_memory R54). -/
def encAccesses (s : State) : List Access :=
  (if s.i < s.len then [.msgRead s.i (msgByte s s.i)] else []) ++
    [.gridRead (scanX s.w s.i) (scanY s.w s.i) (visited s),
     .gridWrite (scanX s.w s.i) (scanY s.w s.i) (embed (encByte s) (visited s))]

/-- What ENC_PIX leaves, field by field. -/
def encNext (s : State) : State :=
  { s with
    m := encByte s
    pr := (visited s).r
    pg := (visited s).g
    pb := (visited s).b
    grid := Memory.write blankPixel s.grid (cellKey (scanX s.w s.i) (scanY s.w s.i)) (embed (encByte s) (visited s))
    seq := if s.i = s.len then .halt else s.seq
    i := s.i + 1
    trace := s.trace ++ encAccesses s }

/-- What DEC_PIX leaves when it visits a pixel, field by field. -/
def decNext (s : State) : State :=
  { s with
    m := extract (visited s)
    pr := (visited s).r
    pg := (visited s).g
    pb := (visited s).b
    out := if extract (visited s) = sentinel then s.out else s.out ++ [extract (visited s)]
    seq := if extract (visited s) = sentinel then .halt else s.seq
    i := s.i + 1
    trace := s.trace ++ (.gridRead (scanX s.w s.i) (scanY s.w s.i) (visited s) ::
      if extract (visited s) = sentinel then [] else [.outAppend (extract (visited s))]) }

@[simp] theorem encNext_seq (s : State) : (encNext s).seq = if s.i = s.len then .halt else s.seq := rfl
@[simp] theorem encNext_err (s : State) : (encNext s).err = s.err := rfl
@[simp] theorem encNext_i (s : State) : (encNext s).i = s.i + 1 := rfl
@[simp] theorem encNext_out (s : State) : (encNext s).out = s.out := rfl
@[simp] theorem encNext_grid (s : State) : (encNext s).grid =
    Memory.write blankPixel s.grid (cellKey (scanX s.w s.i) (scanY s.w s.i)) (embed (encByte s) (visited s)) := rfl
@[simp] theorem encNext_msg (s : State) : (encNext s).msg = s.msg := rfl
@[simp] theorem encNext_w (s : State) : (encNext s).w = s.w := rfl
@[simp] theorem encNext_h (s : State) : (encNext s).h = s.h := rfl
@[simp] theorem encNext_len (s : State) : (encNext s).len = s.len := rfl
@[simp] theorem encNext_m (s : State) : (encNext s).m = encByte s := rfl
@[simp] theorem encNext_pr (s : State) : (encNext s).pr = (visited s).r := rfl
@[simp] theorem encNext_pg (s : State) : (encNext s).pg = (visited s).g := rfl
@[simp] theorem encNext_pb (s : State) : (encNext s).pb = (visited s).b := rfl
@[simp] theorem encNext_cfg (s : State) : (encNext s).cfg = s.cfg := rfl
@[simp] theorem encNext_launch (s : State) : (encNext s).launch = s.launch := rfl
@[simp] theorem encNext_pending (s : State) : (encNext s).pending = s.pending := rfl
@[simp] theorem encNext_portWord (s : State) : (encNext s).portWord = s.portWord := rfl
@[simp] theorem encNext_readback (s : State) : (encNext s).readback = s.readback := rfl
@[simp] theorem encNext_trace (s : State) : (encNext s).trace = s.trace ++ encAccesses s := rfl

@[simp] theorem decNext_seq (s : State) : (decNext s).seq =
    if extract (visited s) = sentinel then .halt else s.seq := rfl
@[simp] theorem decNext_err (s : State) : (decNext s).err = s.err := rfl
@[simp] theorem decNext_i (s : State) : (decNext s).i = s.i + 1 := rfl
@[simp] theorem decNext_out (s : State) : (decNext s).out =
    if extract (visited s) = sentinel then s.out else s.out ++ [extract (visited s)] := rfl
@[simp] theorem decNext_grid (s : State) : (decNext s).grid = s.grid := rfl
@[simp] theorem decNext_msg (s : State) : (decNext s).msg = s.msg := rfl
@[simp] theorem decNext_w (s : State) : (decNext s).w = s.w := rfl
@[simp] theorem decNext_h (s : State) : (decNext s).h = s.h := rfl
@[simp] theorem decNext_len (s : State) : (decNext s).len = s.len := rfl
@[simp] theorem decNext_m (s : State) : (decNext s).m = extract (visited s) := rfl
@[simp] theorem decNext_pr (s : State) : (decNext s).pr = (visited s).r := rfl
@[simp] theorem decNext_pg (s : State) : (decNext s).pg = (visited s).g := rfl
@[simp] theorem decNext_pb (s : State) : (decNext s).pb = (visited s).b := rfl
@[simp] theorem decNext_cfg (s : State) : (decNext s).cfg = s.cfg := rfl
@[simp] theorem decNext_launch (s : State) : (decNext s).launch = s.launch := rfl
@[simp] theorem decNext_pending (s : State) : (decNext s).pending = s.pending := rfl
@[simp] theorem decNext_portWord (s : State) : (decNext s).portWord = s.portWord := rfl
@[simp] theorem decNext_readback (s : State) : (decNext s).readback = s.readback := rfl
@[simp] theorem decNext_trace (s : State) : (decNext s).trace =
    s.trace ++ (.gridRead (scanX s.w s.i) (scanY s.w s.i) (visited s) :: if extract (visited s) = sentinel then [] else [.outAppend (extract (visited s))]) := rfl

/-- ENC_PIX in range. -/
theorem encPix_of_lt {s : State} (h : s.i < pixelCount s.w s.h) : encPix s = .next (encNext s) := by
  simp only [encPix, (inGrid_scan_iff s).2 h, if_true]
  by_cases h1 : s.i < s.len
  · have h2 : s.i ≠ s.len := h1.ne
    simp [encNext, takePayload, encByte, encAccesses, visited, workingPixel, h1, h2, gridRead, gridWrite, putPixel, note,
      loadM, loadPR, loadPG, loadPB, msgRead, setI, pixelAt, msgByte]
  · by_cases h2 : s.i = s.len <;>
      simp [encNext, takePayload, encByte, encAccesses, visited, workingPixel, h1, h2, gridRead, gridWrite, putPixel,
        note, loadM, loadPR, loadPG, loadPB, setI, setSeq, pixelAt]

/-- ENC_PIX out of range faults. -/
theorem encPix_of_ge {s : State} (h : ¬ s.i < pixelCount s.w s.h) : encPix s = .fault .gridOutOfRange := by
  simp [encPix, (inGrid_scan_iff s).not.2 h]

/-- DEC_PIX at the end of the grid raises UnterminatedMessage. -/
theorem decPix_of_eq {s : State} (h : s.i = pixelCount s.w s.h) : decPix s = .next (raise .unterminated s) := by
  simp [decPix, h]

/-- DEC_PIX in range. -/
theorem decPix_of_lt {s : State} (h : s.i < pixelCount s.w s.h) : decPix s = .next (decNext s) := by
  simp only [decPix, (inGrid_scan_iff s).2 h, h.ne, if_true, if_false]
  by_cases h1 : extract (visited s) = sentinel
  · have h1' := h1
    unfold visited at h1'
    simp [decNext, useReconstructed, visited, workingPixel, h1', gridRead, note, loadM, loadPR, loadPG, loadPB, setI,
      setSeq]
  · have h1' := h1
    unfold visited at h1'
    simp [decNext, useReconstructed, visited, workingPixel, h1', gridRead, note, loadM, loadPR, loadPG, loadPB, setI,
      outAppend]

/-- DEC_PIX past the end faults. -/
theorem decPix_of_gt {s : State} (h : pixelCount s.w s.h < s.i) : decPix s = .fault .gridOutOfRange := by
  simp [decPix, (inGrid_scan_iff s).not.2 (by omega), h.ne']

/-- Every next state of the core's transition. -/
theorem coreStep_cases {s t : State} (h : coreStep s = .next t) :
    (busy s = false ∧ t = s) ∨
    (s.seq = .enc ∧ s.i < pixelCount s.w s.h ∧ t = encNext s) ∨
    (s.seq = .dec ∧ s.i = pixelCount s.w s.h ∧ t = raise .unterminated s) ∨
    (s.seq = .dec ∧ s.i < pixelCount s.w s.h ∧ t = decNext s) := by
  cases e : s.seq with
  | idle => exact .inl ⟨by simp [busy, e], by simpa [coreStep, e] using h.symm⟩
  | halt => exact .inl ⟨by simp [busy, e], by simpa [coreStep, e] using h.symm⟩
  | enc =>
    simp only [coreStep, e] at h
    by_cases hi : s.i < pixelCount s.w s.h
    · rw [encPix_of_lt hi] at h
      exact .inr (.inl ⟨rfl, hi, by simpa using h.symm⟩)
    · rw [encPix_of_ge hi] at h
      cases h
  | dec =>
    simp only [coreStep, e] at h
    rcases Nat.lt_trichotomy s.i (pixelCount s.w s.h) with hi | hi | hi
    · rw [decPix_of_lt hi] at h
      exact .inr (.inr (.inr ⟨rfl, hi, by simpa using h.symm⟩))
    · rw [decPix_of_eq hi] at h
      exact .inr (.inr (.inl ⟨rfl, hi, by simpa using h.symm⟩))
    · rw [decPix_of_gt hi] at h
      cases h

/-- The core changes neither W nor H (10_state R21, R29 item 6). -/
theorem coreStep_dimensions {s t : State} (h : coreStep s = .next t) : t.w = s.w ∧ t.h = s.h := by
  rcases coreStep_cases h with ⟨_, rfl⟩ | ⟨_, _, rfl⟩ | ⟨_, _, rfl⟩ | ⟨_, _, rfl⟩ <;> exact ⟨rfl, rfl⟩

/-- The core faults only on a scan index outside the grid, in an operation. -/
theorem coreStep_fault {s : State} {r : Fault} (h : coreStep s = .fault r) :
    (s.seq = .enc ∧ pixelCount s.w s.h ≤ s.i) ∨ (s.seq = .dec ∧ pixelCount s.w s.h < s.i) := by
  cases e : s.seq with
  | idle => simp [coreStep, e] at h
  | halt => simp [coreStep, e] at h
  | enc =>
    refine .inl ⟨rfl, not_lt.1 fun hi => ?_⟩
    simp [coreStep, e, encPix_of_lt hi] at h
  | dec =>
    refine .inr ⟨rfl, not_le.1 fun hi => ?_⟩
    rcases hi.lt_or_eq with hi | hi
    · simp [coreStep, e, decPix_of_lt hi] at h
    · simp [coreStep, e, decPix_of_eq hi] at h

/-! ### The step -/

theorem step_of_portWord {s : State} {pw : PortWord} (h : s.portWord = some pw) :
    step s = runWord pw { s with portWord := none } := by
  simp [step, h]

theorem step_of_nil {s : State} (h : NextLines s []) : step s = coreStep s := by
  simp [step, h.1, h.2]

theorem step_of_waiting {s : State} {mv : HostMove} {rest : List HostMove} (h : NextLines s (mv :: rest))
    (hb : busy s = true) (hw : waitsForDone s.cfg mv = true) : step s = coreStep s := by
  simp [step, h.1, h.2, hb, hw]

theorem step_of_move {s : State} {mv : HostMove} {rest : List HostMove} (h : NextLines s (mv :: rest))
    (hb : (busy s && waitsForDone s.cfg mv) = false) : step s = hostAct mv { s with pending := rest } := by
  simp [step, h.1, h.2, hb]

/-- A step takes the word on the port, is the core's transition, or is a move of the host, which then is not waiting. -/
theorem step_cases (s : State) :
    (∃ pw, s.portWord = some pw ∧ step s = runWord pw { s with portWord := none }) ∨
    (s.portWord = none ∧ step s = coreStep s) ∨
    ∃ mv rest, NextLines s (mv :: rest) ∧ (busy s && waitsForDone s.cfg mv) = false ∧
      step s = hostAct mv { s with pending := rest } := by
  rcases Option.eq_none_or_eq_some s.portWord with hp | ⟨pw, hp⟩
  · cases h : s.pending with
    | nil => exact .inr (.inl ⟨hp, step_of_nil ⟨hp, h⟩⟩)
    | cons mv rest =>
      cases hb : busy s && waitsForDone s.cfg mv with
      | true =>
        rw [Bool.and_eq_true] at hb
        exact .inr (.inl ⟨hp, step_of_waiting ⟨hp, h⟩ hb.1 hb.2⟩)
      | false => exact .inr (.inr ⟨mv, rest, ⟨hp, h⟩, hb, step_of_move ⟨hp, h⟩ hb⟩)
  · exact .inl ⟨pw, hp, step_of_portWord hp⟩

/-- While nothing from outside can act, a busy block takes its pixel step. -/
theorem step_of_scriptWaits {s : State} (hb : busy s = true) (hw : ScriptWaits s) : step s = coreStep s := by
  cases h : s.pending with
  | nil => exact step_of_nil ⟨hw.1, h⟩
  | cons mv rest => exact step_of_waiting ⟨hw.1, h⟩ hb (hw.2 mv (by simp [h]))

theorem coreStep_of_enc {s : State} (h : s.seq = .enc) : coreStep s = encPix s := by simp [coreStep, h]
theorem coreStep_of_dec {s : State} (h : s.seq = .dec) : coreStep s = decPix s := by simp [coreStep, h]
theorem coreStep_of_idle {s : State} (h : s.seq = .idle) : coreStep s = .next s := by simp [coreStep, h]
theorem coreStep_of_halt {s : State} (h : s.seq = .halt) : coreStep s = .next s := by simp [coreStep, h]

/-- BUSY is the two operating modes (10_state R17). -/
theorem busy_iff (s : State) : busy s = true ↔ s.seq = .enc ∨ s.seq = .dec := by
  cases h : s.seq <;> simp [busy, h]

theorem not_busy_iff (s : State) : busy s = false ↔ s.seq = .idle ∨ s.seq = .halt := by
  cases h : s.seq <;> simp [busy, h]

theorem busy_congr {s t : State} (h : t.seq = s.seq) : busy t = busy s := by simp [busy, h]

/-! ### The instructions -/

/-- Every next state of an instruction: the start of a command, a transfer to a working register, or a STATUS read. -/
theorem exec_cases {i : Instr} {s t : State} (h : exec i s = .next t) :
    (i = .cmdEncode ∧ busy s = false ∧ encodeFits s = true ∧ t = encStart s) ∨
    (i = .cmdDecode ∧ busy s = false ∧ decodeFits s = true ∧ t = decStart s) ∨
    ((i = .cmdNeither ∨ i = .cmdBoth) ∧ busy s = false ∧ t = usageStart s) ∨
    (∃ stored dropped, i = .dataPayloadByte stored dropped ∧ t = loadM (payloadBits stored dropped) s) ∨
    (∃ cover carrier, i = .dataChannelR cover carrier ∧ t = loadPR (channelBits cover carrier) s) ∨
    (∃ cover carrier, i = .dataChannelG cover carrier ∧ t = loadPG (channelBits cover carrier) s) ∨
    (∃ cover carrier, i = .dataChannelB cover carrier ∧ t = loadPB (channelBits cover carrier) s) ∨
    (∃ stored, i = .dataReconstructed stored ∧ t = loadM (payloadBits stored 0#5) s) ∨
    (∃ err done busy, i = .statusWord err done busy ∧ t = answer (.status (statusOf s)) s) := by
  cases i with
  | cmdEncode =>
    simp only [exec, execEncode] at h
    split at h <;> [cases h; skip]
    split at h <;> [skip; cases h]
    next hb hf => exact .inl ⟨rfl, by simpa using hb, hf, by simpa using h.symm⟩
  | cmdDecode =>
    simp only [exec, execDecode] at h
    split at h <;> [cases h; skip]
    split at h <;> [skip; cases h]
    next hb hf => exact .inr (.inl ⟨rfl, by simpa using hb, hf, by simpa using h.symm⟩)
  | cmdNeither =>
    simp only [exec, execIllegalNeither] at h
    split at h <;> [cases h; skip]
    next hb => exact .inr (.inr (.inl ⟨.inl rfl, by simpa using hb, by simpa using h.symm⟩))
  | cmdBoth =>
    simp only [exec, execIllegalBoth] at h
    split at h <;> [cases h; skip]
    next hb => exact .inr (.inr (.inl ⟨.inr rfl, by simpa using hb, by simpa using h.symm⟩))
  | dataPayloadByte a d => cases h; simp
  | dataChannelR c e => cases h; simp
  | dataChannelG c e => cases h; simp
  | dataChannelB c e => cases h; simp
  | dataReconstructed a => cases h; simp
  | statusWord e d b => cases h; simp

/-- An instruction never faults; what it refuses, it refuses by name. -/
theorem exec_ne_fault (i : Instr) (s : State) (r : Fault) : exec i s ≠ .fault r := by
  cases i <;> simp only [exec, execEncode, execDecode, execIllegalNeither, execIllegalBoth, execPayloadByte, execChannelR,
    execChannelG, execChannelB, execReconstructed, execStatus, readReg] <;> (repeat' split) <;> simp

/-- No instruction changes W or H. -/
theorem exec_dimensions {i : Instr} {s t : State} (h : exec i s = .next t) : t.w = s.w ∧ t.h = s.h := by
  rcases exec_cases h with ⟨_, _, _, rfl⟩ | ⟨_, _, _, rfl⟩ | ⟨_, _, rfl⟩ | ⟨_, _, _, rfl⟩ | ⟨_, _, _, rfl⟩ |
    ⟨_, _, _, rfl⟩ | ⟨_, _, _, rfl⟩ | ⟨_, _, rfl⟩ | ⟨_, _, _, _, rfl⟩
  · unfold encStart
    split <;> simp
  · simp [decStart]
  · simp [usageStart]
  all_goals simp

/-- The instruction a word decodes to stands at the word's port. -/
theorem port_of_decode {pw : PortWord} {i : Instr} (h : decode pw = .ok i) : (encode i).port = pw.port := by
  obtain ⟨port, bits⟩ := pw
  cases port with
  | cmd =>
    simp only [decode, decodeCmd] at h
    split at h <;> [(split at h <;> cases h <;> rfl); cases h]
  | status =>
    simp only [decode, decodeStatus] at h
    split at h <;> [skip; cases h]
    split at h <;> cases h
    rfl
  | out =>
    simp only [decode, decodeReconstructed] at h
    split at h <;> cases h
    rfl
  | msg => cases h; rfl
  | laneR => cases h; rfl
  | laneG => cases h; rfl
  | laneB => cases h; rfl

/-- A word at a port is run or refused. -/
theorem runWord_cases {pw : PortWord} {s t : State} (h : runWord pw s = .next t) :
    ∃ i, decode pw = .ok i ∧ exec i s = .next t := by
  unfold runWord at h
  split at h
  · next i hi => exact ⟨i, hi, h⟩
  · cases h

end Sys2Proof.Machine
end

