-- ==== Sys2Proof/Laws/Host.lean ====
section
/-! SUPPORT. What the host's moves can do: which fields each leaves, what a loaded space reads as, REGMAP. -/

namespace Sys2Proof.Machine

/-! ### Loading -/

/-- Pixels filled in from index `k` on read back, and the indices below `k` are left. -/
theorem read_fillGrid (w : Nat) (ps : List Pixel) (k : Nat) (g : Memory Pixel) (j : Nat) :
    Memory.read blankPixel (fillGrid w k ps g) (cellKey (scanX w j) (scanY w j)) =
      if k ≤ j ∧ j < k + ps.length then ps.getD (j - k) blankPixel
      else Memory.read blankPixel g (cellKey (scanX w j) (scanY w j)) := by
  induction ps generalizing k g with
  | nil => simp [fillGrid]
  | cons p ps ih =>
    rw [fillGrid, ih]
    by_cases h : j = k
    · subst h
      simp [Memory.read_write_self]
    · have hne : cellKey (scanX w j) (scanY w j) ≠ cellKey (scanX w k) (scanY w k) := fun he =>
        h (scan_inj (cellKey_inj.1 he).1 (cellKey_inj.1 he).2)
      rw [Memory.read_write_of_ne _ _ _ hne]
      by_cases h1 : k + 1 ≤ j ∧ j < k + 1 + ps.length
      · have h2 : j - k = (j - (k + 1)) + 1 := by omega
        rw [if_pos h1, if_pos ⟨by omega, by simp; omega⟩, h2, List.getD_cons_succ]
      · rw [if_neg h1, if_neg (by simp; omega)]

/-- Bytes filled in from index `k` on read back, and the indices below `k` are left. -/
theorem read_fillMsg (bs : List Byte) (k : Nat) (m : Memory Byte) (j : Nat) :
    Memory.read blankByte (fillMsg k bs m) j =
      if k ≤ j ∧ j < k + bs.length then bs.getD (j - k) blankByte else Memory.read blankByte m j := by
  induction bs generalizing k m with
  | nil => simp [fillMsg]
  | cons b bs ih =>
    rw [fillMsg, ih]
    by_cases h : j = k
    · subst h
      simp [Memory.read_write_self]
    · rw [Memory.read_write_of_ne _ _ _ h]
      by_cases h1 : k + 1 ≤ j ∧ j < k + 1 + bs.length
      · have h2 : j - k = (j - (k + 1)) + 1 := by omega
        rw [if_pos h1, if_pos ⟨by omega, by simp; omega⟩, h2, List.getD_cons_succ]
      · rw [if_neg h1, if_neg (by simp; omega)]

theorem fillGrid_wf (w : Nat) (ps : List Pixel) (k : Nat) {g : Memory Pixel} (h : Memory.wf blankPixel g) :
    Memory.wf blankPixel (fillGrid w k ps g) := by
  induction ps generalizing k g with
  | nil => exact h
  | cons p ps ih => exact ih _ (Memory.write_wf _ _ _ h)

theorem fillMsg_wf (bs : List Byte) (k : Nat) {m : Memory Byte} (h : Memory.wf blankByte m) :
    Memory.wf blankByte (fillMsg k bs m) := by
  induction bs generalizing k m with
  | nil => exact h
  | cons b bs ih => exact ih _ (Memory.write_wf _ _ _ h)

/-! ### Moves that are neither a word nor the core's -/

/-- A register read changes the readback alone. -/
theorem readReg_cases {r : RegName} {s t : State} (h : readReg r s = .next t) : ∃ v, t = answer v s := by
  cases r <;> simp only [readReg, reduceCtorEq, Host.Outcome.next.injEq] at h <;> exact ⟨_, h.symm⟩

/-- A presented register is W, H or LEN. -/
theorem supplyReg_cases {r : RegName} {v : Nat} {s t : State} (h : supplyReg r v s = .next t) :
    t = { s with w := t.w, h := t.h, len := t.len } := by
  cases r <;> simp only [supplyReg, reduceCtorEq, Host.Outcome.next.injEq] at h <;> subst h <;> rfl

/-- A register write is a command word or a presented input. -/
theorem writeReg_cases {r : RegName} {v : Nat} {s t : State} (h : writeReg r v s = .next t) :
    (∃ pw, pw.port = .cmd ∧ runWord pw s = .next t) ∨ supplyReg r v s = .next t := by
  unfold writeReg at h
  split at h
  · split at h
    · exact .inl ⟨_, rfl, h⟩
    · cases h
  · exact .inr h

/-- A loaded grid: the new pixels, with the new dimensions. -/
theorem loadGrid_cases {w h : Nat} {ps : List Pixel} {s t : State} (ht : loadGrid w h ps s = .next t) :
    t = { s with w := w, h := h, grid := fillGrid w 0 ps [] } := by
  unfold loadGrid at ht
  split at ht <;> cases ht
  rfl

/-- The host's own things changed: GRID, MSG, W, H, LEN and what it has read. -/
def HostOnly (s t : State) : Prop :=
  (SpacesCanonical s → SpacesCanonical t) ∧
    t = { s with grid := t.grid, msg := t.msg, w := t.w, h := t.h, len := t.len, readback := t.readback }

/-- Every next state of a host move: a command's or a STATUS word's, the core's, a reset's, one in which only the readback
differs, or, for a move that waits for DONE, one in which only the host's own things differ. -/
theorem hostAct_cases {mv : HostMove} {s t : State} (h : hostAct mv s = .next t) :
    (∃ i, hostPort (encode i).port = true ∧ exec i s = .next t) ∨ (mv = .pass ∧ coreStep s = .next t) ∨
    (mv = .reset ∧ t = resetBlock s) ∨ (∃ v, t = answer v s) ∨ (waitsForDone s.cfg mv = true ∧ HostOnly s t) := by
  have word : ∀ pw, hostPort pw.port = true → runWord pw s = .next t →
      ∃ i, hostPort (encode i).port = true ∧ exec i s = .next t := fun pw hp hw =>
    let ⟨i, hd, hi⟩ := runWord_cases hw
    ⟨i, by rw [port_of_decode hd]; exact hp, hi⟩
  have wr : ∀ r v, writeReg r v s = .next t →
      (∃ i, hostPort (encode i).port = true ∧ exec i s = .next t) ∨ HostOnly s t := by
    intro r v hr
    rcases writeReg_cases hr with ⟨pw, hc, hw⟩ | hs
    · exact .inl (word pw (by rw [hc]; rfl) hw)
    · rw [supplyReg_cases hs]
      exact .inr ⟨id, rfl⟩
  cases mv with
  | word pw =>
    simp only [hostAct] at h
    split at h
    · next hp => exact .inl (word pw hp h)
    · cases h
  | readReg r => exact .inr (.inr (.inr (.inl (readReg_cases h))))
  | writeReg r v => exact (wr r v h).imp_right fun h => .inr (.inr (.inr ⟨rfl, h⟩))
  | busRead a =>
    simp only [hostAct] at h
    split at h
    · exact .inr (.inr (.inr (.inl (readReg_cases h))))
    · cases h
  | busWrite a v =>
    simp only [hostAct] at h
    split at h
    · next r _ => exact (wr r v h).imp_right fun h => .inr (.inr (.inr ⟨rfl, h⟩))
    · cases h
  | loadGrid w hh ps =>
    obtain rfl := loadGrid_cases h
    exact .inr (.inr (.inr (.inr ⟨rfl, fun hs => ⟨fillGrid_wf _ _ _ (Memory.nil_wf _), hs.2⟩, rfl⟩)))
  | loadMsg bs =>
    cases h
    exact .inr (.inr (.inr (.inr ⟨rfl, fun hs => ⟨hs.1, fillMsg_wf _ _ (Memory.nil_wf _)⟩, rfl⟩)))
  | setPixel x y p =>
    simp only [hostAct, hostSetPixel] at h
    split at h
    · cases h
      exact .inr (.inr (.inr (.inr ⟨rfl, fun hs => ⟨Memory.write_wf _ _ _ hs.1, hs.2⟩, rfl⟩)))
    · cases h
  | getPixel x y =>
    simp only [hostAct, hostGetPixel] at h
    split at h
    · cases h
      exact .inr (.inr (.inr (.inl ⟨_, rfl⟩)))
    · cases h
  | setMsg k b =>
    simp only [hostAct, hostSetMsg] at h
    split at h
    · cases h
      exact .inr (.inr (.inr (.inr ⟨rfl, fun hs => ⟨hs.1, Memory.write_wf _ _ _ hs.2⟩, rfl⟩)))
    · cases h
  | getMsg k =>
    simp only [hostAct, hostGetMsg] at h
    split at h
    · cases h
      exact .inr (.inr (.inr (.inl ⟨_, rfl⟩)))
    · cases h
  | readOut =>
    cases h
    exact .inr (.inr (.inr (.inl ⟨_, rfl⟩)))
  | reset => exact .inr (.inr (.inl ⟨rfl, by simpa [hostAct] using h.symm⟩))
  | pass => exact .inr (.inl ⟨rfl, h⟩)

/-- M, PR, PG and PB change by no host move but a reset and the core's own transition (10_state R13). -/
theorem hostAct_working {mv : HostMove} {s t : State} (hr : mv ≠ .reset) (hp : mv ≠ .pass) (h : hostAct mv s = .next t) :
    t.m = s.m ∧ t.pr = s.pr ∧ t.pg = s.pg ∧ t.pb = s.pb := by
  rcases hostAct_cases h with ⟨i, hi, he⟩ | ⟨rfl, _⟩ | ⟨rfl, _⟩ | ⟨v, rfl⟩ | ⟨_, _, ht⟩
  · rcases exec_cases he with ⟨_, _, _, rfl⟩ | ⟨_, _, _, rfl⟩ | ⟨_, _, rfl⟩ | ⟨_, _, rfl, _⟩ | ⟨_, _, rfl, _⟩ |
      ⟨_, _, rfl, _⟩ | ⟨_, _, rfl, _⟩ | ⟨_, rfl, _⟩ | ⟨_, _, _, _, rfl⟩
    · unfold encStart
      split <;> simp
    · simp [decStart]
    · simp [usageStart]
    iterate 5 cases hi
    · simp
  · exact absurd rfl hp
  · exact absurd rfl hr
  · simp
  · rw [ht]
    exact ⟨rfl, rfl, rfl, rfl⟩

/-- A word that is no command word leaves STATE, ERR, I and the launch on record. -/
theorem runWord_control {pw : PortWord} {s t : State} (hc : pw.port ≠ .cmd) (h : runWord pw s = .next t) :
    t.seq = s.seq ∧ t.err = s.err ∧ t.i = s.i ∧ t.launch = s.launch := by
  obtain ⟨port, bits⟩ := pw
  cases port with
  | cmd => exact absurd rfl hc
  | status =>
    simp only [runWord, decode, decodeStatus] at h
    split at h <;> [skip; cases h]
    next hd =>
      split at hd <;> [skip; cases hd]
      split at hd <;> cases hd
      cases h
      exact ⟨rfl, rfl, rfl, rfl⟩
  | out =>
    simp only [runWord, decode, decodeReconstructed] at h
    split at h <;> [skip; cases h]
    next hd =>
      split at hd <;> cases hd
      cases h
      exact ⟨rfl, rfl, rfl, rfl⟩
  | msg => cases h; exact ⟨rfl, rfl, rfl, rfl⟩
  | laneR => cases h; exact ⟨rfl, rfl, rfl, rfl⟩
  | laneG => cases h; exact ⟨rfl, rfl, rfl, rfl⟩
  | laneB => cases h; exact ⟨rfl, rfl, rfl, rfl⟩

/-- STATE, ERR, I and the launch on record change by no host move but a CMD write, a reset and the core's own transition. -/
theorem hostAct_control {mv : HostMove} {s t : State} (hc : commandWrite s.cfg mv = false) (hr : mv ≠ .reset)
    (hp : mv ≠ .pass) (h : hostAct mv s = .next t) : t.seq = s.seq ∧ t.err = s.err ∧ t.i = s.i ∧ t.launch = s.launch := by
  have wr : ∀ r v, r ≠ .cmd → writeReg r v s = .next t → t.seq = s.seq ∧ t.err = s.err ∧ t.i = s.i ∧ t.launch = s.launch := by
    intro r v hn hw
    rw [writeReg, if_neg hn] at hw
    rw [supplyReg_cases hw]
    exact ⟨rfl, rfl, rfl, rfl⟩
  cases mv with
  | word pw =>
    simp only [hostAct] at h
    split at h
    · exact runWord_control (by simpa [commandWrite] using hc) h
    · cases h
  | writeReg r v => exact wr r v (by simpa [commandWrite] using hc) h
  | busWrite a v =>
    simp only [hostAct] at h
    split at h
    · next r hr => exact wr r v (by rintro rfl; simp [commandWrite, hr] at hc) h
    · cases h
  | reset => exact absurd rfl hr
  | pass => exact absurd rfl hp
  | readReg r =>
    obtain ⟨v, rfl⟩ := readReg_cases h
    exact ⟨rfl, rfl, rfl, rfl⟩
  | busRead a =>
    simp only [hostAct] at h
    split at h
    · obtain ⟨v, rfl⟩ := readReg_cases h
      exact ⟨rfl, rfl, rfl, rfl⟩
    · cases h
  | loadGrid w hh ps =>
    obtain rfl := loadGrid_cases h
    exact ⟨rfl, rfl, rfl, rfl⟩
  | setPixel x y p => simp only [hostAct, hostSetPixel] at h; split at h <;> cases h; exact ⟨rfl, rfl, rfl, rfl⟩
  | getPixel x y => simp only [hostAct, hostGetPixel] at h; split at h <;> cases h; exact ⟨rfl, rfl, rfl, rfl⟩
  | setMsg k b => simp only [hostAct, hostSetMsg] at h; split at h <;> cases h; exact ⟨rfl, rfl, rfl, rfl⟩
  | getMsg k => simp only [hostAct, hostGetMsg] at h; split at h <;> cases h; exact ⟨rfl, rfl, rfl, rfl⟩
  | loadMsg bs => cases h; exact ⟨rfl, rfl, rfl, rfl⟩
  | readOut => cases h; exact ⟨rfl, rfl, rfl, rfl⟩

/-- W and H change by no host move but one that presents them (10_state R21, R29 item 6). -/
theorem hostAct_dimensions {mv : HostMove} {s t : State} (hm : presentsDimensions s.cfg mv = false)
    (h : hostAct mv s = .next t) : t.w = s.w ∧ t.h = s.h := by
  have word : ∀ pw, runWord pw s = .next t → t.w = s.w ∧ t.h = s.h := fun pw hw =>
    let ⟨_, _, he⟩ := runWord_cases hw
    exec_dimensions he
  have wr : ∀ r v, r ≠ .w → r ≠ .h → writeReg r v s = .next t → t.w = s.w ∧ t.h = s.h := by
    intro r v hw hh hr
    rcases writeReg_cases hr with ⟨pw, _, hp⟩ | hs
    · exact word pw hp
    · cases r <;> cases hs <;> first | exact ⟨rfl, rfl⟩ | exact absurd rfl hw | exact absurd rfl hh
  cases mv with
  | word pw =>
    simp only [hostAct] at h
    split at h
    · exact word pw h
    · cases h
  | readReg r =>
    obtain ⟨v, rfl⟩ := readReg_cases h
    exact ⟨rfl, rfl⟩
  | writeReg r v =>
    simp only [presentsDimensions, Bool.or_eq_false_iff, beq_eq_false_iff_ne] at hm
    exact wr r v hm.1 hm.2 h
  | busRead a =>
    simp only [hostAct] at h
    split at h
    · obtain ⟨v, rfl⟩ := readReg_cases h
      exact ⟨rfl, rfl⟩
    · cases h
  | busWrite a v =>
    simp only [hostAct] at h
    split at h
    · next r hr =>
      simp only [presentsDimensions, hr, Bool.or_eq_false_iff, beq_eq_false_iff_ne, ne_eq, Option.some.injEq] at hm
      exact wr r v hm.1 hm.2 h
    · cases h
  | loadGrid w hh ps => cases hm
  | setPixel x y p => simp only [hostAct, hostSetPixel] at h; split at h <;> cases h; exact ⟨rfl, rfl⟩
  | getPixel x y => simp only [hostAct, hostGetPixel] at h; split at h <;> cases h; exact ⟨rfl, rfl⟩
  | setMsg k b => simp only [hostAct, hostSetMsg] at h; split at h <;> cases h; exact ⟨rfl, rfl⟩
  | getMsg k => simp only [hostAct, hostGetMsg] at h; split at h <;> cases h; exact ⟨rfl, rfl⟩
  | loadMsg bs => cases h; exact ⟨rfl, rfl⟩
  | readOut => cases h; exact ⟨rfl, rfl⟩
  | reset => cases h; exact ⟨rfl, rfl⟩
  | pass => exact coreStep_dimensions h

/-- Only the core's transition faults. -/
theorem hostAct_fault {mv : HostMove} {s : State} {r : Fault} (h : hostAct mv s = .fault r) :
    mv = .pass ∧ coreStep s = .fault r := by
  have word : ∀ pw, runWord pw s ≠ .fault r := by
    intro pw
    unfold runWord
    split
    · exact exec_ne_fault _ _ _
    · simp
  have rd : ∀ q, readReg q s ≠ .fault r := by
    intro q
    cases q <;> simp [readReg]
  have wr : ∀ q v, writeReg q v s ≠ .fault r := by
    intro q v
    unfold writeReg
    split
    · split
      · exact word _
      · simp
    · cases q <;> simp [supplyReg]
  cases mv with
  | word pw =>
    simp only [hostAct] at h
    split at h
    · exact absurd h (word pw)
    · cases h
  | readReg q => exact absurd h (rd q)
  | writeReg q v => exact absurd h (wr q v)
  | busRead a =>
    simp only [hostAct] at h
    split at h
    · exact absurd h (rd _)
    · cases h
  | busWrite a v =>
    simp only [hostAct] at h
    split at h
    · exact absurd h (wr _ _)
    · cases h
  | loadGrid w hh ps =>
    simp only [hostAct, loadGrid] at h
    split at h <;> cases h
  | loadMsg bs => cases h
  | setPixel x y p => simp only [hostAct, hostSetPixel] at h; split at h <;> cases h
  | getPixel x y => simp only [hostAct, hostGetPixel] at h; split at h <;> cases h
  | setMsg k b => simp only [hostAct, hostSetMsg] at h; split at h <;> cases h
  | getMsg k => simp only [hostAct, hostGetMsg] at h; split at h <;> cases h
  | readOut => cases h
  | reset => cases h
  | pass => exact ⟨rfl, h⟩

/-- What a move that does not wait can be: a STATUS word or read, a reset, a pass. -/
theorem not_waits_cases {cfg : Config} {mv : HostMove} (h : waitsForDone cfg mv = false) :
    (∃ pw, mv = .word pw ∧ pw.port = .status) ∨ mv = .readReg .status ∨
    (∃ a, mv = .busRead a ∧ regAt cfg.regmap a = some .status) ∨ mv = .reset ∨ mv = .pass := by
  cases mv <;> simp_all [waitsForDone]

end Sys2Proof.Machine
end

