-- ==== Sys2Proof/Laws/Run.lean ====
section
/-! SUPPORT. Runs of many steps. -/

namespace Sys2Proof.Machine

@[simp] theorem run_zero (s : State) : run 0 s = .next s := rfl

theorem run_succ_of_next {k : Nat} {s t : State} (h : step s = .next t) : run (k + 1) s = run k t := by
  simp [run, h]

/-- A run after a run. -/
theorem run_add {j k : Nat} {s t : State} (h : run j s = .next t) : run (j + k) s = run k t := by
  induction j generalizing s with
  | zero => cases h; simp
  | succ j ih =>
    rw [Nat.add_right_comm, run]
    rw [run] at h
    cases hs : step s with
    | next s' => rw [hs] at h; exact ih h
    | fault r => rw [hs] at h; cases h
    | refused r => rw [hs] at h; cases h

/-- An ENCODE line of the script, its turn come. -/
theorem step_cmdEncode {s : State} {rest : List HostMove}
    (hp : NextLines s (.word { port := .cmd, bits := 0b01#8 } :: rest)) (hb : busy s = false)
    (hf : encodeFits s = true) : step s = .next (encStart { s with pending := rest }) := by
  have hd : decode { port := .cmd, bits := 0b01#8 } = .ok .cmdEncode := by decide
  have hb' : busy { s with pending := rest } = false := hb
  have hf' : encodeFits { s with pending := rest } = true := hf
  rw [step_of_move hp (by simp [hb])]
  simp only [hostAct, hostPort, runWord, hd, exec, execEncode, hb', hf', if_true, Bool.false_eq_true, if_false]

/-- A DECODE line of the script, its turn come. -/
theorem step_cmdDecode {s : State} {rest : List HostMove}
    (hp : NextLines s (.word { port := .cmd, bits := 0b10#8 } :: rest)) (hb : busy s = false)
    (hf : decodeFits s = true) : step s = .next (decStart { s with pending := rest }) := by
  have hd : decode { port := .cmd, bits := 0b10#8 } = .ok .cmdDecode := by decide
  have hb' : busy { s with pending := rest } = false := hb
  have hf' : decodeFits { s with pending := rest } = true := hf
  rw [step_of_move hp (by simp [hb])]
  simp only [hostAct, hostPort, runWord, hd, exec, execDecode, hb', hf', if_true, Bool.false_eq_true, if_false]

/-- `run` is the host's own run of this machine. -/
theorem run_eq_core_run (k : Nat) (s : State) : Host.Core.run Sys2Proof.core k s = run k s := by
  induction k generalizing s with
  | zero => rfl
  | succ k ih =>
    have hc : Sys2Proof.core.step s = step s := rfl
    cases hs : step s <;> rw [hs] at hc <;> simp only [Host.Core.run, run, hc, hs, ih] <;> rfl

end Sys2Proof.Machine
end

