-- ==== Sys2Proof/Laws/Operations.lean ====
section
/-! SUPPORT. Whole operations: what `k` pixel steps of an encode or of a decode have done, the Layer S functions index by
index, and the sentinel search of DECODE_FN. -/

namespace Sys2Proof.Machine

/-! ### Layer S -/

@[simp] theorem encodeFrom_length (msg : List Byte) (k : Nat) (ps : List Pixel) :
    (encodeFrom msg k ps).length = ps.length := by
  induction ps generalizing k with
  | nil => rfl
  | cons p ps ih => simp [encodeFrom, ih]

/-- ENCODE_FN pixel by pixel (41_encoder R112). -/
theorem encodeFrom_getElem (msg : List Byte) (k : Nat) (ps : List Pixel) (j : Nat) (h : j < (encodeFrom msg k ps).length) :
    (encodeFrom msg k ps)[j] = encodedPixel msg (k + j) (ps[j]'(by simpa using h)) := by
  induction ps generalizing k j with
  | nil => simp at h
  | cons p ps ih =>
    cases j with
    | zero => simp [encodeFrom]
    | succ j =>
      simp only [encodeFrom, List.getElem_cons_succ]
      rw [ih]
      congr 1
      omega

/-- The sentinel search: with a sentinel in the list, the bytes before the first one. -/
theorem findIdx?_sentinel {es : List Byte} (h : sentinel ∈ es) :
    ∃ t, es.findIdx? (fun e => e == sentinel) = some t ∧ es.take t = es.takeWhile (fun e => e != sentinel) := by
  induction es with
  | nil => simp at h
  | cons e es ih =>
    by_cases he : e = sentinel
    · exact ⟨0, by simp [List.findIdx?_cons, he], by simp [he]⟩
    · obtain ⟨t, ht, hk⟩ := ih ((List.mem_cons.1 h).resolve_left (Ne.symm he))
      exact ⟨t + 1, by simp [List.findIdx?_cons, he, ht], by simp [he, hk]⟩

/-- DECODE_FN of a grid with a sentinel (42_decoder R142). -/
theorem decodeFn_of_mem {g : List Pixel} (h : sentinel ∈ g.map extract) :
    decodeFn g = (.none, (g.map extract).takeWhile (fun e => e != sentinel)) := by
  obtain ⟨t, ht, hk⟩ := findIdx?_sentinel h
  simp only [decodeFn, ht, hk]

/-- DECODE_FN of a grid with none. -/
theorem decodeFn_of_not_mem {g : List Pixel} (h : sentinel ∉ g.map extract) :
    decodeFn g = (.unterminated, g.map extract) := by
  have : (g.map extract).findIdx? (fun e => e == sentinel) = none := by
    rw [List.findIdx?_eq_none_iff]
    intro e he
    have : e ≠ sentinel := fun h' => h (h' ▸ he)
    simpa using this
  simp only [decodeFn, this]

/-! ### An encode in progress -/

/-- The byte an encode embeds at index `k`. -/
def byteAt (s : State) (k : Nat) : Byte := if k < s.len then msgByte s k else sentinel

/-- The accesses an encode makes at index `k`. -/
def encAccessesAt (s : State) (k : Nat) : List Access :=
  (if k < s.len then [.msgRead k (msgByte s k)] else []) ++
    [.gridRead (scanX s.w k) (scanY s.w k) (pixelOfIndex s k),
     .gridWrite (scanX s.w k) (scanY s.w k) (embed (byteAt s k) (pixelOfIndex s k))]

/-- What `k` pixel steps of an encode begun in `s` have done. -/
structure EncProgress (s u : State) (k : Nat) : Prop where
  seq : u.seq = if k = s.len + 1 then .halt else .enc
  i : u.i = k
  err : u.err = s.err
  msg : u.msg = s.msg
  out : u.out = s.out
  w : u.w = s.w
  h : u.h = s.h
  len : u.len = s.len
  cfg : u.cfg = s.cfg
  pending : u.pending = s.pending
  portWord : u.portWord = s.portWord
  readback : u.readback = s.readback
  pixel : ∀ j, pixelOfIndex u j = if j < k then embed (byteAt s j) (pixelOfIndex s j) else pixelOfIndex s j
  trace : u.trace = s.trace ++ (List.range k).flatMap (encAccessesAt s)

/-- An encode begun in `s` makes `k` pixel steps, for every `k` up to LEN + 1. -/
theorem encode_progress {s : State} (e : s.seq = .enc) (hi : s.i = 0) (ha : s.len + 1 ≤ s.w * s.h)
    (hw : ScriptWaits s) (k : Nat) (hk : k ≤ s.len + 1) : ∃ u, run k s = .next u ∧ EncProgress s u k := by
  induction k with
  | zero =>
    refine ⟨s, rfl, ⟨by simp [e], hi, rfl, rfl, rfl, rfl, rfl, rfl, rfl, rfl, rfl, rfl, fun j => by simp, by simp⟩⟩
  | succ k ih =>
    obtain ⟨u, hu, p⟩ := ih (by omega)
    have he : u.seq = .enc := by rw [p.seq, if_neg (by omega)]
    have hwu : ScriptWaits u := by
      unfold ScriptWaits
      rw [p.portWord, p.pending, p.cfg]
      exact hw
    have hlt : u.i < pixelCount u.w u.h := by rw [p.i, p.w, p.h, pixelCount_eq]; omega
    have hstep : step u = .next (encNext u) := by
      rw [step_of_scriptWaits ((busy_iff u).2 (.inl he)) hwu, coreStep_of_enc he, encPix_of_lt hlt]
    have hv : visited u = pixelOfIndex s k := by
      show pixelAt u (scanX u.w u.i) (scanY u.w u.i) = _
      have := p.pixel k
      rw [if_neg (by omega)] at this
      rw [p.i]
      exact this
    have hb : encByte u = byteAt s k := by
      simp only [encByte, byteAt, p.i, p.len, msgByte_congr p.msg]
    refine ⟨encNext u, by rw [run_add hu, run_succ_of_next hstep, run_zero], ?_⟩
    refine ⟨?_, by simp [p.i], p.err, p.msg, p.out, p.w, p.h, p.len, p.cfg, p.pending, p.portWord, p.readback, fun j => ?_, ?_⟩
    · simp only [encNext_seq, p.i, p.len, he]
      by_cases h : k = s.len <;> simp [h]
    · have hpx : pixelOfIndex (encNext u) j = if j = k then embed (byteAt s k) (pixelOfIndex s k) else pixelOfIndex u j := by
        simp only [pixelOfIndex, pixelAt, encNext_grid, encNext_w, hv, hb, p.i]
        split
        · next h => rw [h, Memory.read_write_self]
        · next h =>
          exact Memory.read_write_of_ne _ _ _ fun hc => h (scan_inj (cellKey_inj.1 hc).1 (cellKey_inj.1 hc).2)
      rw [hpx, p.pixel]
      by_cases h : j = k
      · simp [h]
      · simp only [h, if_false]
        by_cases h' : j < k
        · rw [if_pos h', if_pos (by omega)]
        · rw [if_neg h', if_neg (by omega)]
    · have hacc : encAccesses u = encAccessesAt s k := by
        simp only [encAccesses, encAccessesAt, hv, hb, p.i, p.len, p.w, msgByte_congr p.msg]
      simp only [encNext_trace, p.trace, hacc, List.range_succ, List.flatMap_append, List.flatMap_singleton,
        List.append_assoc]

/-! ### A decode in progress -/

/-- The byte a decode reconstructs at index `k`. -/
def codeAt (s : State) (k : Nat) : Byte := extract (pixelOfIndex s k)

/-- What `k` appending pixel steps of a decode begun in `s` have done. -/
structure DecProgress (s u : State) (k : Nat) : Prop where
  seq : u.seq = .dec
  i : u.i = k
  err : u.err = s.err
  grid : u.grid = s.grid
  msg : u.msg = s.msg
  w : u.w = s.w
  h : u.h = s.h
  len : u.len = s.len
  cfg : u.cfg = s.cfg
  pending : u.pending = s.pending
  portWord : u.portWord = s.portWord
  readback : u.readback = s.readback
  out : u.out = s.out ++ (List.range k).map (codeAt s)
  trace : u.trace = s.trace ++ (List.range k).flatMap fun j =>
    [.gridRead (scanX s.w j) (scanY s.w j) (pixelOfIndex s j), .outAppend (codeAt s j)]

/-- While a decode has met no sentinel the visited pixel is the grid's own. -/
theorem DecProgress.visited_eq {s u : State} {k : Nat} (p : DecProgress s u k) : visited u = pixelOfIndex s k := by
  simp only [visited, pixelOfIndex, pixelAt, p.i, p.w, p.grid]

/-- The script of a decode in progress still waits. -/
theorem DecProgress.step_eq {s u : State} {k : Nat} (p : DecProgress s u k) (hw : ScriptWaits s) :
    step u = decPix u := by
  have hwu : ScriptWaits u := by
    unfold ScriptWaits
    rw [p.portWord, p.pending, p.cfg]
    exact hw
  rw [step_of_scriptWaits ((busy_iff u).2 (.inr p.seq)) hwu, coreStep_of_dec p.seq]

/-- A decode begun in `s` makes `k` appending steps when its first `k` pixels carry no sentinel. -/
theorem decode_progress {s : State} (e : s.seq = .dec) (hi : s.i = 0) (hw : ScriptWaits s) (k : Nat)
    (hk : k ≤ s.w * s.h) (hn : ∀ j, j < k → codeAt s j ≠ sentinel) : ∃ u, run k s = .next u ∧ DecProgress s u k := by
  induction k with
  | zero =>
    refine ⟨s, rfl, ⟨e, hi, rfl, rfl, rfl, rfl, rfl, rfl, rfl, rfl, rfl, rfl, by simp, by simp⟩⟩
  | succ k ih =>
    obtain ⟨u, hu, p⟩ := ih (by omega) fun j hj => hn j (by omega)
    have hlt : u.i < pixelCount u.w u.h := by rw [p.i, p.w, p.h, pixelCount_eq]; omega
    have hx : extract (visited u) ≠ sentinel := by rw [p.visited_eq]; exact hn k (by omega)
    refine ⟨decNext u, by rw [run_add hu, run_succ_of_next (by rw [p.step_eq hw, decPix_of_lt hlt]), run_zero], ?_⟩
    refine ⟨by simp [hx, p.seq], by simp [p.i], p.err, p.grid, p.msg, p.w, p.h, p.len, p.cfg, p.pending, p.portWord, p.readback,
      ?_, ?_⟩
    · rw [decNext_out, if_neg hx, p.visited_eq, p.out, List.range_succ, List.map_append, List.append_assoc]
      rfl
    · rw [decNext_trace, if_neg hx, p.visited_eq, p.trace, List.range_succ, List.flatMap_append,
        List.flatMap_singleton, List.append_assoc, p.i, p.w]
      rfl

end Sys2Proof.Machine
end

