-- ==== Sys2Proof/Laws/PerInstr.lean ====
section
/-! SUPPORT. One property of every instruction as syntax, one lemma per constructor: the word of an instruction has no
bit above the width spec/opcode_table.json gives its row (30_encoding R75: CMD has 2 bits; 10_state R20: STATUS has 4). -/

namespace Sys2Proof.Laws.EncodedWidth

/-- The width of the row a constructor stands for. -/
def rowWidth : Instr → Nat
  | .cmdEncode => 2
  | .cmdDecode => 2
  | .cmdNeither => 2
  | .cmdBoth => 2
  | .dataPayloadByte _ _ => 8
  | .dataChannelR _ _ => 8
  | .dataChannelG _ _ => 8
  | .dataChannelB _ _ => 8
  | .dataReconstructed _ => 8
  | .statusWord _ _ _ => 4

/-- No bit of the word stands above the row's width. -/
def Statement (i : Instr) : Prop := (encode i).bits.toNat < 2 ^ rowWidth i

theorem cmdEncode : Statement .cmdEncode := by simp [Statement, encode, rowWidth]
theorem cmdDecode : Statement .cmdDecode := by simp [Statement, encode, rowWidth]
theorem cmdNeither : Statement .cmdNeither := by simp [Statement, encode, rowWidth]
theorem cmdBoth : Statement .cmdBoth := by simp [Statement, encode, rowWidth]
theorem dataPayloadByte (stored : BitVec 3) (dropped : BitVec 5) : Statement (.dataPayloadByte stored dropped) :=
  BitVec.isLt _
theorem dataChannelR (cover : BitVec 7) (carrier : BitVec 1) : Statement (.dataChannelR cover carrier) :=
  BitVec.isLt _
theorem dataChannelG (cover : BitVec 7) (carrier : BitVec 1) : Statement (.dataChannelG cover carrier) :=
  BitVec.isLt _
theorem dataChannelB (cover : BitVec 7) (carrier : BitVec 1) : Statement (.dataChannelB cover carrier) :=
  BitVec.isLt _
theorem dataReconstructed (stored : BitVec 3) : Statement (.dataReconstructed stored) :=
  BitVec.isLt _
theorem statusWord (err : BitVec 2) (done busy : BitVec 1) : Statement (.statusWord err done busy) := by
  have h : (encode (.statusWord err done busy)).bits = (err ++ (done ++ busy) : BitVec 4).setWidth 8 := by
    simp only [encode, statusBits]
    exact BitVec.setWidth_eq_append (by decide) |>.symm
  have := (err ++ (done ++ busy) : BitVec 4).isLt
  simp only [Statement, h, rowWidth, BitVec.toNat_setWidth]
  omega

end Sys2Proof.Laws.EncodedWidth
end

