-- ==== Sys2Proof/Tests/Slice0.lean ====
section
/-! SUPPORT. The model's own tests: the WellFormed smoke test, words written out from the spec's formats, vectors of
95_test_vectors one step at a time, and a witness for every statement that has hypotheses. -/

namespace Sys2Proof.Tests

open Sys2Proof Sys2Proof.Machine

/-! ### Helpers -/

/-- The next state, if there is one. -/
def after (o : Host.Outcome State Fault Refusal) : Option State :=
  match o with
  | .next t => some t
  | .fault _ => none
  | .refused _ => none

/-- The reason a move was refused, if it was. -/
def reason (o : Host.Outcome State Fault Refusal) : Option Refusal :=
  match o with
  | .next _ => none
  | .fault _ => none
  | .refused r => some r

def px (r g b : Nat) : Pixel := { r := BitVec.ofNat 8 r, g := BitVec.ofNat 8 g, b := BitVec.ofNat 8 b }

/-- A block in IDLE whose host has loaded a grid and a message. -/
def loaded (w h : Nat) (ps : List Pixel) (bs : List Byte) : State :=
  { State.reset with w := w, h := h, len := bs.length, grid := fillGrid w 0 ps [], msg := fillMsg 0 bs [] }

/-- The grid and message of V1 (95_test_vectors, from doc00 §8). -/
def v1 : State := loaded 2 1 [px 200 200 200, px 10 10 10] [0x41#8]

/-- V1's grid after its encode. -/
def v1Done : State := loaded 2 1 [px 200 201 200, px 10 10 10] [0x41#8]

/-- The grid of V52, with no all-even pixel. -/
def v52 : State := loaded 2 1 [px 201 200 200, px 10 11 13] []

/-- An operation launched on the grid that stands. -/
def at_ (s : State) (q : Seq) (i : Nat) : State :=
  { s with seq := q, i := i, launch := { w := s.w, h := s.h, outW := s.w, outH := s.h } }

def cmdWord (v : Byte) : HostMove := .word { port := .cmd, bits := v }

def script (s : State) (l : List HostMove) : State := { s with pending := l }

/-! ### WellFormed: an ill-formed term for each check -/

theorem test_illformed_busy_and_done : WellFormed (.statusWord 0#2 1#1 1#1) = false := by decide
theorem test_illformed_error_without_done : WellFormed (.statusWord 1#2 0#1 0#1) = false := by decide
theorem test_wellformed_legal_status_words :
    [(0, 0, 0), (0, 1, 0), (1, 1, 0), (2, 1, 0), (3, 1, 0), (0, 0, 1)].all (fun (e, d, b) =>
      WellFormed (.statusWord (BitVec.ofNat 2 e) (BitVec.ofNat 1 d) (BitVec.ofNat 1 b))) = true := by decide

/-! ### Words from the spec's formats (30_encoding R70 to R72, R75, R76; 10_state R20) -/

theorem test_decode_encode_word : decode { port := .cmd, bits := 0b00000001#8 } = .ok .cmdEncode := by decide
theorem test_decode_decode_word : decode { port := .cmd, bits := 0b00000010#8 } = .ok .cmdDecode := by decide
theorem test_decode_neither_word : decode { port := .cmd, bits := 0b00000000#8 } = .ok .cmdNeither := by decide
theorem test_decode_both_word : decode { port := .cmd, bits := 0b00000011#8 } = .ok .cmdBoth := by decide
theorem test_decode_wide_cmd : decode { port := .cmd, bits := 0b00000101#8 } = .error .cmdTooWide := by decide
theorem test_decode_payload : decode { port := .msg, bits := 0b10100101#8 } = .ok (.dataPayloadByte 0b101#3 0b00101#5) := by decide
theorem test_decode_lane_r : decode { port := .laneR, bits := 0b11111110#8 } = .ok (.dataChannelR 0b1111111#7 0#1) := by decide
theorem test_decode_lane_g : decode { port := .laneG, bits := 0b00000011#8 } = .ok (.dataChannelG 0b0000001#7 1#1) := by decide
theorem test_decode_lane_b : decode { port := .laneB, bits := 0b10000000#8 } = .ok (.dataChannelB 0b1000000#7 0#1) := by decide
theorem test_decode_reconstructed : decode { port := .out, bits := 0b11000000#8 } = .ok (.dataReconstructed 0b110#3) := by decide
theorem test_decode_not_reconstructed : decode { port := .out, bits := 0b11000001#8 } = .error .notReconstructed := by decide
theorem test_decode_status : decode { port := .status, bits := 0b00001110#8 } = .ok (.statusWord 0b11#2 1#1 0#1) := by decide
theorem test_decode_status_illegal : decode { port := .status, bits := 0b00000011#8 } = .error .statusIllegal := by decide
theorem test_decode_status_wide : decode { port := .status, bits := 0b00010010#8 } = .error .statusTooWide := by decide
theorem test_table_words : [0, 1, 2, 3, 0x0E, 0x41, 0xE0].map (decodeTableWord 8) =
    [some .cmdNeither, some .cmdEncode, some .cmdDecode, some .cmdBoth, some (.statusWord 3#2 1#1 0#1),
     some (.dataPayloadByte 0b010#3 0b00001#5), some (.dataReconstructed 0b111#3)] := by decide
theorem test_table_word_too_wide : decodeTableWord 16 1 = none := by decide

/-! ### EMBED and EXTRACT: V12, V13, V17, V19, V28 -/

theorem test_embed_v12 : embed 0xFF#8 (px 0 0 0) = px 1 1 1 := by decide
theorem test_embed_v13 : embed 0x00#8 (px 255 255 255) = px 254 254 254 := by decide
theorem test_embed_v17 : embed 0xA5#8 (px 16 32 64) = px 17 32 65 := by decide
theorem test_embed_v19 : embed 0xC0#8 (px 255 0 255) = px 255 1 254 := by decide
theorem test_extract_v28 : extract (px 255 254 253) = 0xA0#8 := by decide

/-! ### ENCODE: V35, V36 (capacity), V40's steps, V41 and V45 as ENCODE_FN -/

theorem test_encode_admitted_v35 :
    (after (exec .cmdEncode (loaded 3 2 [] [1#8, 1#8, 1#8, 1#8, 1#8]))).map (fun t => (t.seq, t.err, t.i)) =
      some (.enc, .none, 0) := by decide
theorem test_encode_capacity_v36 :
    (after (exec .cmdEncode (loaded 3 2 [] [1#8, 1#8, 1#8, 1#8, 1#8, 1#8]))).map (fun t => (statusOf t, t.i)) =
      some (0b0110#4, 0) := by decide
theorem test_enc_pix_v40_payload :
    (after (step (at_ v1 .enc 0))).map (fun t => (t.seq, t.i, t.m, gridList t)) =
      some (.enc, 1, 0x41#8, [px 200 201 200, px 10 10 10]) := by decide
theorem test_enc_pix_v40_terminator :
    (after (step (at_ v1Done .enc 1))).map (fun t => (t.seq, t.i, t.m, gridList t)) =
      some (.halt, 2, 0x00#8, [px 200 201 200, px 10 10 10]) := by decide
theorem test_encode_fn_v41 :
    encodeFn 3 2 [px 255 0 128, px 17 254 1, px 0 255 255, px 9 9 9, px 77 78 79, px 1 2 3] [0x48#8, 0x69#8, 0x21#8] =
      ([px 254 1 128, px 16 255 1, px 0 254 255, px 8 8 8, px 77 78 79, px 1 2 3], .none) := by decide
theorem test_encode_fn_v46 :
    encodeFn 2 2 [px 1 1 1, px 1 1 1, px 1 1 1, px 1 1 1] [0xFF#8, 0x80#8, 0x20#8, 0x40#8] =
      ([px 1 1 1, px 1 1 1, px 1 1 1, px 1 1 1], .capacity) := by decide

/-! ### DECODE: V65 (start), V52's steps, V55 and V57 as DECODE_FN -/

theorem test_decode_start_v65 :
    (after (exec .cmdDecode { v52 with seq := .halt, err := .unterminated, i := 2, out := [0x80#8, 0x60#8] })).map
      (fun t => (t.seq, t.err, t.i, t.out)) = some (.dec, .none, 0, []) := by decide
theorem test_dec_pix_v52_append :
    (after (step { at_ v52 .dec 1 with out := [0x80#8] })).map (fun t => (t.seq, t.i, t.out)) =
      some (.dec, 2, [0x80#8, 0x60#8]) := by decide
theorem test_dec_pix_v52_exhausted :
    (after (step { at_ v52 .dec 2 with out := [0x80#8, 0x60#8] })).map (fun t => (statusOf t, t.i, t.out)) =
      some (0b1010#4, 2, [0x80#8, 0x60#8]) := by decide
theorem test_dec_pix_v50_sentinel :
    (after (step { at_ v1Done .dec 1 with out := [0x40#8] })).map (fun t => (statusOf t, t.i, t.out)) =
      some (0b0010#4, 2, [0x40#8]) := by decide
theorem test_decode_fn_v55 : decodeFn [px 12 34 57, px 255 255 255, px 8 6 4] = (.none, [0x20#8, 0xE0#8]) := by decide
theorem test_decode_fn_v52 : decodeFn [px 201 200 200, px 10 11 13] = (.unterminated, [0x80#8, 0x60#8]) := by decide

/-! ### Illegal words V60, V61; reset V63; STATUS; data words -/

theorem test_neither_v60 : (after (exec .cmdNeither v1)).map (fun t => (statusOf t, t.i)) = some (0b1110#4, 0) := by decide
theorem test_both_v61 :
    (after (exec .cmdBoth { v1 with seq := .halt, err := .capacity })).map (fun t => (statusOf t, t.i)) =
      some (0b1110#4, 0) := by decide
theorem test_reset_v63 : (statusOf State.reset, State.reset.i, State.reset.out) = (0b0000#4, 0, []) := by decide
theorem test_status_while_busy :
    (after (step (script (at_ v1 .enc 1) [.word { port := .status, bits := 0#8 }]))).map (fun t => (t.seq, t.i, t.readback)) =
      some (.enc, 1, .status 0b0001#4) := by decide
theorem test_payload_word_keeps_dropped_bits :
    (after (exec (.dataPayloadByte 0b010#3 0b00001#5) v1)).map (fun t => t.m) = some 0x41#8 := by decide
theorem test_channel_words :
    ([.dataChannelR 0b1100100#7 1#1, .dataChannelG 0b1100100#7 1#1, .dataChannelB 0b1100100#7 1#1].map
      (fun i => (after (exec i v1)).map (fun t => (t.pr, t.pg, t.pb)))) =
      [some (201#8, 0#8, 0#8), some (0#8, 201#8, 0#8), some (0#8, 0#8, 201#8)] := by decide
theorem test_reconstructed_word :
    (after (exec (.dataReconstructed 0b111#3) v1)).map (fun t => t.m) = some 0xE0#8 := by decide
theorem test_reset_while_busy_keeps_grid :
    (after (step (script (at_ v1Done .enc 1) [.reset]))).map (fun t => (t.seq, t.i, gridList t)) =
      some (.idle, 0, [px 200 201 200, px 10 10 10]) := by decide
theorem test_fetch_word_runs_after_reset :
    (after (step (State.reset.withFetchWord 8 2))).map (fun t => (t.seq, t.pending)) = some (.dec, []) := by decide
theorem test_fetch_word_runs_while_busy :
    (after (step ((at_ v1 .enc 1).withFetchWord 8 0x41))).map (fun t => (t.m, t.seq, t.i, t.portWord)) =
      some (0x41#8, .enc, 1, none) := by decide
theorem test_host_cannot_write_working_registers :
    reason (step (script v1 [.word { port := .msg, bits := 0x41#8 }])) = some .noWritePort ∧
    reason (step (script v1 [.word { port := .laneR, bits := 1#8 }])) = some .noWritePort := by decide
/-- R203, R204, R208: after an operation the host presents a grid of another size, and the next command runs on it. -/
theorem test_grid_of_another_size_in_halt :
    (after (step (script (at_ v1 .halt 2) [.loadGrid 1 1 [px 7 7 7]]))).map (fun t => (t.w, t.h, gridList t, t.i, t.seq)) =
      some (1, 1, [px 7 7 7], 2, .halt) ∧
    (after (step (script { at_ v1 .halt 2 with w := 1 } [cmdWord 2#8]))).map (fun t => (t.seq, t.i, t.launch.w)) =
      some (.dec, 0, 1) := by decide
theorem test_width_changed_in_halt :
    (after (step (script (at_ v1 .halt 2) [.writeReg .w 1]))).map (fun t => (t.w, t.h, t.i)) = some (1, 1, 2) := by decide
theorem test_unmapped_bus_address :
    reason (step (script v1 [.busRead 7])) = some .unmappedBusAddress := by decide

/-! ### Witnesses: states and operands that meet every statement's hypotheses -/

/-- A finite implementation of two index bits that V1's grid exceeds nowhere and a 2 by 2 grid exceeds. -/
def twoBits : Config := { Config.initial with idxw := some 2 }

def busyInv : State := at_ v1 .enc 1

theorem busyInv_meets_inv : Inv busyInv :=
  ⟨by decide, by decide, by decide, by decide, by decide, by decide, by decide, by decide, by decide⟩

/-- A decode in progress at the end of an unterminated grid. -/
def endOfScan : State := { at_ v52 .dec 2 with out := [0x80#8, 0x60#8] }

theorem endOfScan_meets_inv : Inv endOfScan :=
  ⟨by decide, by decide, by decide, by decide, by decide, by decide, by decide, by decide, by decide⟩

theorem witness_DecodeOfEncode : WellFormed (.statusWord 0b10#2 1#1 0#1) = true ∧ WellFormed .cmdBoth = true := by decide
theorem witness_EncodeOfDecode :
    decode { port := .cmd, bits := 3#8 } = .ok .cmdBoth ∧
    decode { port := .out, bits := 0#8 } = .ok (.dataReconstructed 0#3) := by decide
theorem witness_StepRunsDecodedWord_port :
    (v1.withFetchWord 8 0x41).portWord = some { port := .msg, bits := 0x41#8 } ∧
    decode { port := .msg, bits := 0x41#8 } = .ok (.dataPayloadByte 2#3 1#5) := by decide
theorem witness_StepRunsDecodedWord_run :
    NextLines (script v1 [cmdWord 1#8]) (.word { port := .cmd, bits := 1#8 } :: []) ∧ busy (script v1 [cmdWord 1#8]) = false ∧
    decode { port := .cmd, bits := 1#8 } = .ok .cmdEncode := by decide
theorem witness_StepRunsDecodedWord_status :
    (PortWord.mk .status 1#8).port = .status ∧ busy busyInv = true ∧
    decode { port := .status, bits := 1#8 } = .ok (.statusWord 0#2 0#1 1#1) := by decide
theorem witness_StepRunsDecodedWord_rejected :
    busy v1 = false ∧ decode { port := .cmd, bits := 4#8 } = .error .cmdTooWide := by decide
theorem witness_StepRunsDecodedWord_data :
    NextLines (script v1 [.word { port := .laneG, bits := 1#8 }]) (.word { port := .laneG, bits := 1#8 } :: []) ∧
    ¬ (Port.laneG = .cmd ∨ Port.laneG = .status) := by decide
theorem witness_FetchWordRuns :
    decodeTableWord 8 0 = some .cmdNeither ∧ decodeTableWord 8 14 = some (.statusWord 3#2 1#1 0#1) := by decide
theorem witness_BusyBlockTakesItsPixelStep :
    (ScriptWaits busyInv ∧ busyInv.seq = .enc) ∧ (ScriptWaits endOfScan ∧ endOfScan.seq = .dec) ∧
    (ScriptWaits (script busyInv [.readOut])) ∧ (NextLines v1 [] ∧ v1.seq = .idle) ∧
    (NextLines State.reset [] ∧ State.reset.seq = .idle) := by decide
theorem witness_EncodeStart_admitted :
    v1.seq = .idle ∧ indexFits v1.cfg (v1.w * v1.h) = true ∧ indexFits v1.cfg v1.len = true ∧
    v1.len + 1 = v1.w * v1.h ∧ (after (exec .cmdEncode v1)).isSome = true := by decide
theorem witness_EncodeStart_finite_width :
    indexFits twoBits (v1.w * v1.h) = true ∧ indexFits twoBits v1.len = true := by decide
theorem witness_EncodeStart_capacity :
    indexFits State.reset.cfg (State.reset.w * State.reset.h) = true ∧ indexFits State.reset.cfg State.reset.len = true ∧
    State.reset.len + 1 > State.reset.w * State.reset.h := by decide
theorem witness_DecodeStart :
    v1.seq = .idle ∧ indexFits v1.cfg (v1.w * v1.h) = true ∧ (after (exec .cmdDecode v1)).isSome = true := by decide
theorem witness_IllegalCommandsRaiseUsage : v1.seq = .idle ∧ (at_ v1 .halt 2).seq = .halt := by decide
theorem witness_CommandWhileBusyRefused : busyInv.seq = .enc ∧ endOfScan.seq = .dec := by decide
theorem witness_LaunchBeyondIndexWidthRefused_grid :
    twoBits.idxw = some 2 ∧ (loaded 2 2 [] []).seq = .idle ∧ 2 ^ 2 ≤ (loaded 2 2 [] []).w * (loaded 2 2 [] []).h := by decide
theorem witness_LaunchBeyondIndexWidthRefused_len :
    (loaded 0 0 [] [0#8, 0#8, 0#8, 0#8]).seq = .idle ∧ 2 ^ 2 ≤ (loaded 0 0 [] [0#8, 0#8, 0#8, 0#8]).len := by decide
theorem witness_ReconstructedByteReachesM : 0xE0#8 &&& 0x1F#8 = 0#8 ∧ 0xE1#8 &&& 0x1F#8 ≠ 0#8 := by decide
theorem witness_StatusReadAnswersTheView_halt : Inv v1 ∧ v1.seq = .idle :=
  ⟨⟨by decide, by decide, by decide, by decide, by decide, by decide, by decide, by decide, by decide⟩, rfl⟩
theorem witness_StatusReadAnswersTheView_busy : Inv busyInv ∧ busyInv.seq = .enc := ⟨busyInv_meets_inv, rfl⟩
theorem witness_InstructionFrame :
    [Instr.cmdEncode, .cmdDecode, .cmdNeither, .cmdBoth, .dataPayloadByte 1#3 1#5, .dataChannelR 1#7 1#1, .dataChannelG 1#7 1#1,
      .dataChannelB 1#7 1#1, .dataReconstructed 1#3, .statusWord 0#2 1#1 0#1].all (fun i => (after (exec i v1)).isSome) = true := by
  decide
theorem witness_BitLayoutConvention : ∀ k, 5 ≤ k → (0x5F#8).getLsbD k = (0x40#8).getLsbD k := by
  intro k hk
  by_cases h : k < 8
  · have : k = 5 ∨ k = 6 ∨ k = 7 := by omega
    rcases this with rfl | rfl | rfl <;> decide
  · rw [BitVec.getLsbD_of_ge _ _ (by omega), BitVec.getLsbD_of_ge _ _ (by omega)]
theorem witness_EncodePixelStep_payload :
    (at_ v1 .enc 0).seq = .enc ∧ (at_ v1 .enc 0).i < v1.len ∧ v1.len < v1.w * v1.h ∧ ScriptWaits (at_ v1 .enc 0) := by decide
theorem witness_EncodePixelStep_terminator :
    busyInv.seq = .enc ∧ busyInv.i ≤ busyInv.len ∧ busyInv.i = busyInv.len ∧ busyInv.len < busyInv.w * busyInv.h ∧
    ScriptWaits busyInv := by decide
theorem witness_DecodePixelStep_exhausted :
    endOfScan.seq = .dec ∧ endOfScan.i ≤ endOfScan.w * endOfScan.h ∧ endOfScan.i = endOfScan.w * endOfScan.h ∧
    ScriptWaits endOfScan := by decide
theorem witness_DecodePixelStep_sentinel :
    (at_ v1 .dec 1).seq = .dec ∧ (at_ v1 .dec 1).i ≤ v1.w * v1.h ∧ ScriptWaits (at_ v1 .dec 1) ∧
    extract (pixelAt (at_ v1 .dec 1) (1 % 2) (1 / 2)) = 0#8 := by decide
theorem witness_DecodePixelStep_append :
    (at_ v52 .dec 1).seq = .dec ∧ (at_ v52 .dec 1).i ≤ v52.w * v52.h ∧ ScriptWaits (at_ v52 .dec 1) ∧
    extract (pixelAt (at_ v52 .dec 1) (1 % 2) (1 / 2)) ≠ 0#8 := by decide
theorem witness_PixelStepFrame :
    busy busyInv = true ∧ ScriptWaits busyInv ∧ (after (step busyInv)).isSome = true ∧
    busy endOfScan = true ∧ ScriptWaits endOfScan ∧ (after (step endOfScan)).isSome = true := by decide
theorem witness_DataWordsMakeTheStepsTransfers :
    (at_ v1 .enc 0).seq = .enc ∧ (at_ v1 .enc 0).i < (at_ v1 .enc 0).len ∧ ScriptWaits (at_ v1 .enc 0) ∧
    (after (step (at_ v1 .enc 0))).isSome = true := by decide
theorem witness_CoreStaysInRange : Inv busyInv ∧ (after (step busyInv)).isSome = true := ⟨busyInv_meets_inv, by decide⟩
theorem witness_CanonicalWriteReadsBack :
    Memory.wf blankPixel v1.grid ∧ v1.grid ≠ [] ∧ Memory.wf blankByte v1.msg ∧ v1.msg ≠ [] ∧ (5 : Nat) ≠ 4 := by decide
theorem witness_EqualReadsEqualSpaces :
    Memory.wf blankByte v1.msg ∧ Memory.wf blankPixel v1.grid ∧ v1.msg ≠ [] := by decide
theorem witness_RasterIndexBijection : 5 < 3 * 2 ∧ 2 < 3 ∧ 1 < 2 := by decide
theorem witness_ScriptLinesLoadTheSpaces :
    busy State.reset = false ∧ [px 7 7 7].length = 1 * 1 ∧ [px 7 7 7].length ≠ 1 * 2 ∧
    (after (step (script State.reset [.loadGrid 1 1 [px 7 7 7]]))).isSome = true ∧
    busy (at_ v1 .halt 2) = false ∧
    NextLines (script (at_ v1 .halt 2) [.loadGrid 1 1 [px 7 7 7]]) (.loadGrid 1 1 [px 7 7 7] :: []) ∧
    (after (step (script State.reset [.loadMsg []]))).isSome = true := by decide
theorem witness_HostCellAccess :
    busy v1 = false ∧ (1 < v1.w ∧ 0 < v1.h) ∧ ¬ (2 < v1.w ∧ 0 < v1.h) ∧ 0 < v1.len ∧ ¬ 1 < v1.len ∧
    NextLines (script v1 [.setPixel 1 0 (px 1 2 3)]) (.setPixel 1 0 (px 1 2 3) :: []) := by decide
theorem witness_RegisterAccessByName :
    busy v1 = false ∧ NextLines (script v1 [.readReg .cmd]) (.readReg .cmd :: []) ∧
    NextLines (script v1 [.writeReg .olen 1]) (.writeReg .olen 1 :: []) ∧ RegName.olen ≠ .cmd ∧
    NextLines (script v1 [.readOut]) (.readOut :: []) := by decide
theorem witness_BusAccessIsAccessByName : State.reset.cfg.regmap.injective ∧ 3 < 4 := by decide
theorem witness_ResetAtAnyTime : NextLines (script busyInv [.reset]) (.reset :: []) ∧ busy busyInv = true := by decide
theorem witness_StepKeepsInv : Inv endOfScan ∧ (after (step endOfScan)).isSome = true := ⟨endOfScan_meets_inv, by decide⟩
theorem witness_ScanIndexStaysInGrid :
    Inv busyInv ∧ (after (step busyInv)).map (fun t => (t.w, t.h)) = some (busyInv.w, busyInv.h) ∧ busyInv.i ≤ busyInv.w * busyInv.h ∧
    olen busyInv ≤ busyInv.w * busyInv.h :=
  ⟨busyInv_meets_inv, by decide, by decide, by decide⟩
theorem witness_ScanIndexStaysInGrid_busy :
    Inv (at_ v1 .enc 0) ∧ (after (step (at_ v1 .enc 0))).map busy = some true :=
  ⟨⟨by decide, by decide, by decide, by decide, by decide, by decide, by decide, by decide, by decide⟩, by decide⟩
theorem witness_ScanIndexStaysInGrid_changes :
    (after (step (script v1 [.loadGrid 1 1 [px 7 7 7]]))).map (fun t => (t.w, t.h)) = some (1, 1) ∧ (v1.w, v1.h) ≠ (1, 1) ∧
    (script v1 [cmdWord 1#8]).portWord = none ∧
    (after (step (script v1 [cmdWord 1#8]))).map (fun t => t.launch.w) = some 2 ∧ v1.launch.w ≠ 2 := by decide
theorem witness_SequencerTransitions_enter :
    (after (step (script v1 [cmdWord 1#8]))).map (fun t => t.seq) = some .enc ∧ v1.seq ≠ .enc ∧
    (after (step (script v1 [cmdWord 2#8]))).map (fun t => t.seq) = some .dec ∧ v1.seq ≠ .dec ∧
    v1.seq = .idle ∧ (script v1 [cmdWord 1#8]).portWord = none ∧ (script v1 [cmdWord 1#8]).pending.head? ≠ some .reset := by decide
theorem witness_SequencerTransitions_leave :
    (after (step busyInv)).map (fun t => t.seq) = some .halt ∧ (after (step endOfScan)).map (fun t => t.seq) = some .halt ∧
    (after (step (at_ v1 .dec 1))).map (fun t => t.seq) = some .halt ∧ busyInv.pending.head? ≠ some .reset := by decide
theorem witness_SequencerTransitions_leave_halt :
    (at_ v1 .halt 2).seq = .halt ∧
    (after (step (script (at_ v1 .halt 2) [cmdWord 2#8]))).map (fun t => t.seq) = some .dec ∧
    (script (at_ v1 .halt 2) [cmdWord 2#8]).pending.head? ≠ some .reset := by decide
theorem witness_ErrorRegisterChanges :
    endOfScan.err = .none ∧ (after (step endOfScan)).map (fun t => t.err) = some .unterminated ∧
    (after (step (script v1 [cmdWord 3#8]))).map (fun t => t.err) = some .usage := by decide
theorem witness_EncodeCapacityFailure :
    indexFits State.reset.cfg (State.reset.w * State.reset.h) = true ∧
    indexFits State.reset.cfg State.reset.len = true ∧ State.reset.len + 1 > State.reset.w * State.reset.h ∧
    NextLines (script State.reset [cmdWord 1#8]) (.word { port := .cmd, bits := 0b01#8 } :: []) := by decide

/-- V1 with its encode in the script, for every statement about a whole encode. -/
theorem witness_EncodeRuns :
    (script v1 [cmdWord 1#8, .readOut]).seq = .idle ∧
    indexFits v1.cfg (v1.w * v1.h) = true ∧ indexFits v1.cfg v1.len = true ∧ v1.len + 1 ≤ v1.w * v1.h ∧
    NextLines (script v1 [cmdWord 1#8, .readOut]) (.word { port := .cmd, bits := 0b01#8 } :: [.readOut]) ∧
    (∀ mv ∈ ([.readOut] : List HostMove).head?, waitsForDone v1.cfg mv = true) := by decide

/-- V50 and V52 with their decodes in the script, for every statement about a whole decode. -/
theorem witness_DecodeRuns :
    (script v1Done [cmdWord 2#8]).seq = .idle ∧ indexFits v1Done.cfg (v1Done.w * v1Done.h) = true ∧
    NextLines (script v1Done [cmdWord 2#8]) (.word { port := .cmd, bits := 0b10#8 } :: []) ∧
    1 < v1Done.w * v1Done.h ∧ (∀ j, j < 1 → extract (pixelOfIndex v1Done j) ≠ 0x00#8) ∧
    extract (pixelOfIndex v1Done 1) = 0x00#8 ∧
    NextLines (script v52 [cmdWord 2#8]) (.word { port := .cmd, bits := 0b10#8 } :: []) ∧
    (∀ j, j < v52.w * v52.h → extract (pixelOfIndex v52 j) ≠ 0x00#8) := by decide
theorem witness_BusyBlockHalts : Inv busyInv ∧ busy busyInv = true ∧ ScriptWaits busyInv :=
  ⟨busyInv_meets_inv, by decide, by decide⟩
theorem witness_RoundTrip :
    [px 200 200 200, px 10 10 10].length = 2 * 1 ∧ [0x41#8].length + 1 ≤ 2 * 1 ∧ 0x00#8 ∉ [0x41#8] := by decide
theorem witness_RoundTripOfProgram :
    NextLines (script v1 [cmdWord 1#8, cmdWord 2#8])
      [.word { port := .cmd, bits := 0b01#8 }, .word { port := .cmd, bits := 0b10#8 }] ∧ v1.len + 1 ≤ v1.w * v1.h := by decide
theorem witness_InBandTerminatorCutsMessage :
    (List.replicate 4 (px 100 100 100)).length = 4 * 1 ∧ ([0x41#8] ++ 0x0A#8 :: [0x42#8]).length + 1 ≤ 4 * 1 ∧
    (∀ b ∈ [0x41#8], 0x20 ≤ b.toNat) ∧ (0x0A#8).toNat < 0x20 := by decide
theorem witness_DroppedBitsDoNotReachTheGrid :
    [0x40#8, 0x60#8].map (fun m => m &&& 0xE0#8) = [0x5F#8, 0x7F#8].map (fun m => m &&& 0xE0#8) := by decide
theorem witness_CommandsStartClean :
    (encode .cmdDecode).port = .cmd ∧ (after (exec .cmdDecode v1)).isSome = true ∧
    (after (exec .cmdDecode { v1 with seq := .halt, err := .usage, out := [0x20#8], len := 7 })).isSome = true ∧
    (encode .cmdEncode).port = .cmd ∧ (after (exec .cmdEncode v1)).isSome = true ∧
    (after (exec .cmdEncode { v1 with seq := .halt, err := .usage, out := [0x20#8] })).isSome = true := by decide
theorem witness_ResetInterruptsEncode :
    v1.seq = .idle ∧ indexFits v1.cfg (v1.w * v1.h) = true ∧ indexFits v1.cfg v1.len = true ∧ v1.len + 1 ≤ v1.w * v1.h ∧
    1 ≤ v1.len ∧ NextLines (script v1 [cmdWord 1#8, .pass, .reset])
      (.word { port := .cmd, bits := 0b01#8 } :: (List.replicate 1 .pass ++ [.reset])) := by decide
theorem witness_DecodeReadsCarrierBitsOnly :
    [px 255 254 253].length = [px 1 0 1].length ∧ (px 255 254 253).r.getLsbD 0 = (px 1 0 1).r.getLsbD 0 ∧
    (px 255 254 253).g.getLsbD 0 = (px 1 0 1).g.getLsbD 0 ∧ (px 255 254 253).b.getLsbD 0 = (px 1 0 1).b.getLsbD 0 := by decide
theorem witness_WorkingRegistersAreTheCores :
    busyInv.portWord = none ∧ busyInv.pending.head? ≠ some .reset ∧
    (after (step busyInv)).map (fun t => (t.m, t.pr, t.pg, t.pb)) ≠ some (busyInv.m, busyInv.pr, busyInv.pg, busyInv.pb) ∧
    (after (step busyInv)).isSome = true := by decide
theorem witness_PixelsAfterSentinelIgnored : extract (px 10 10 10) = 0x00#8 := by decide

end Sys2Proof.Tests
end

section
/-! PROOFS. The index width of a finite implementation and the launches it refuses (00_scope R6). -/

namespace Sys2Proof.Machine

/-- On a finite implementation a count fails to fit from `2^IDXW` on (00_scope R6). -/
theorem indexFits_eq_false_iff {c : Config} {k : Nat} (hk : c.idxw = some k) (n : Nat) :
    indexFits c n = false ↔ 2 ^ k ≤ n := by
  simp [indexFits, hk]

/-- An ENCODE misfits by its pixel count or by its message length. -/
theorem encodeFits_eq_false_iff {s : State} {k : Nat} (hk : s.cfg.idxw = some k) :
    encodeFits s = false ↔ 2 ^ k ≤ s.w * s.h ∨ 2 ^ k ≤ s.len := by
  rw [encodeFits, Bool.and_eq_false_iff, indexFits_eq_false_iff hk, indexFits_eq_false_iff hk, pixelCount_eq]

/-- A DECODE misfits by its pixel count alone: LEN need not be valid for it (70_reset R204). -/
theorem decodeFits_eq_false_iff {s : State} {k : Nat} (hk : s.cfg.idxw = some k) :
    decodeFits s = false ↔ 2 ^ k ≤ s.w * s.h := by
  rw [decodeFits, indexFits_eq_false_iff hk, pixelCount_eq]

theorem exec_cmdEncode_of_not_fits {s : State} (hb : busy s = false) (hf : encodeFits s = false) :
    exec .cmdEncode s = .refused .indexWidthExceeded := by
  simp [exec, execEncode, hb, hf]

theorem exec_cmdDecode_of_not_fits {s : State} (hb : busy s = false) (hf : decodeFits s = false) :
    exec .cmdDecode s = .refused .indexWidthExceeded := by
  simp [exec, execDecode, hb, hf]

/-- Settles O12: in IDLE and HALT the block is not busy, so only the index width can refuse a launch, and here it does. -/
theorem launchBeyondIndexWidthRefused : Obligations.LaunchBeyondIndexWidthRefused := by
  intro s k hk hseq
  have hb : busy s = false := (not_busy_iff s).2 hseq
  exact ⟨fun h => exec_cmdEncode_of_not_fits hb ((encodeFits_eq_false_iff hk).2 h),
    fun h => exec_cmdDecode_of_not_fits hb ((decodeFits_eq_false_iff hk).2 h)⟩

end Sys2Proof.Machine
end

section
/-! PROOFS. What one step can do, said once: it acts on the state with the port word or its script line taken off, and
STATE, ERR, I and the launch on record change in three ways only. The invariant proofs and the transition statements
split along these cases. -/

namespace Sys2Proof.Machine

/-- `u` is `s` with its port word, or the script line whose turn has come, taken off. -/
def Taken (s u : State) : Prop := u = { s with pending := u.pending, portWord := none }

theorem taken_pending {s : State} (hp : s.portWord = none) (rest : List HostMove) :
    Taken s { s with pending := rest } := by
  unfold Taken
  rw [← hp]

theorem taken_self {s : State} (hp : s.portWord = none) : Taken s s := taken_pending hp s.pending

/-- Every next state of a step: an instruction's, the core's, a reset's, a read's, or, in a block that is not busy, one
in which only the host's own things differ. -/
theorem step_next_cases {s t : State} (h : step s = .next t) :
    ∃ u, Taken s u ∧ ((∃ i, exec i u = .next t) ∨ coreStep u = .next t ∨ t = resetBlock u ∨ (∃ v, t = answer v u) ∨
      (busy u = false ∧ HostOnly u t)) := by
  rcases step_cases s with ⟨pw, _, he⟩ | ⟨hp, he⟩ | ⟨mv, rest, hl, hw, he⟩ <;> rw [he] at h
  · obtain ⟨i, _, hi⟩ := runWord_cases h
    exact ⟨{ s with portWord := none }, rfl, .inl ⟨i, hi⟩⟩
  · exact ⟨s, taken_self hp, .inr (.inl h)⟩
  · refine ⟨_, taken_pending hl.1 rest, ?_⟩
    rcases hostAct_cases h with ⟨i, _, hi⟩ | ⟨_, hc⟩ | ⟨_, hr⟩ | hv | ⟨hd, ho⟩
    · exact .inl ⟨i, hi⟩
    · exact .inr (.inl hc)
    · exact .inr (.inr (.inl hr))
    · exact .inr (.inr (.inr (.inl hv)))
    · have hb : busy s = false := by simpa [show waitsForDone s.cfg mv = true from hd] using hw
      exact .inr (.inr (.inr (.inr ⟨hb, ho⟩)))

/-- A CMD write waits for DONE (70_reset R207). -/
theorem waits_of_commandWrite {cfg : Config} {mv : HostMove} (h : commandWrite cfg mv = true) :
    waitsForDone cfg mv = true := by
  cases mv <;> simp_all [commandWrite, waitsForDone]

/-- A move that presents W or H waits for DONE (70_reset R206). -/
theorem waits_of_presentsDimensions {cfg : Config} {mv : HostMove} (h : presentsDimensions cfg mv = true) :
    waitsForDone cfg mv = true := by
  cases mv <;> simp_all [presentsDimensions, waitsForDone]

/-- STATE, ERR, I and the record of launches are as before. -/
def SameControl (s t : State) : Prop := t.seq = s.seq ∧ t.err = s.err ∧ t.i = s.i ∧ t.launch = s.launch

/-- An instruction leaves the control registers, or starts a command in a block that is not busy. -/
theorem exec_control {i : Instr} {s t : State} (h : exec i s = .next t) :
    SameControl s t ∨ (busy s = false ∧ (t = encStart s ∨ t = decStart s ∨ t = usageStart s)) := by
  rcases exec_cases h with ⟨_, hb, _, ht⟩ | ⟨_, hb, _, ht⟩ | ⟨_, hb, ht⟩ | ⟨_, _, _, rfl⟩ | ⟨_, _, _, rfl⟩ |
    ⟨_, _, _, rfl⟩ | ⟨_, _, _, rfl⟩ | ⟨_, _, rfl⟩ | ⟨_, _, _, _, rfl⟩
  · exact .inr ⟨hb, .inl ht⟩
  · exact .inr ⟨hb, .inr (.inl ht)⟩
  · exact .inr ⟨hb, .inr (.inr ht)⟩
  all_goals exact .inl ⟨rfl, rfl, rfl, rfl⟩

/-- With no word on a port, a step is a reset, the start of a command by a CMD write, or the core's transition, or it
leaves the control registers as they are. -/
theorem step_control_cases {s t : State} (hp : s.portWord = none) (h : step s = .next t) :
    (s.pending.head? = some .reset ∧ ∃ rest, t = resetBlock { s with pending := rest }) ∨
    (busy s = false ∧ s.pending.head?.any (commandWrite s.cfg) = true ∧
      ∃ rest, t = encStart { s with pending := rest } ∨ t = decStart { s with pending := rest } ∨
        t = usageStart { s with pending := rest }) ∨
    (∃ rest, coreStep { s with pending := rest } = .next t) ∨ SameControl s t := by
  rcases step_cases s with ⟨pw, hpw, _⟩ | ⟨_, he⟩ | ⟨mv, rest, ⟨_, hl⟩, hw, he⟩
  · simp [hp] at hpw
  · rw [he] at h
    exact .inr (.inr (.inl ⟨s.pending, h⟩))
  rw [he] at h
  by_cases hr : mv = .reset
  · subst hr
    exact .inl ⟨by simp [hl], rest, by simpa [hostAct] using h.symm⟩
  by_cases hm : mv = .pass
  · subst hm
    exact .inr (.inr (.inl ⟨rest, h⟩))
  cases hc : commandWrite s.cfg mv with
  | false => exact .inr (.inr (.inr (hostAct_control (s := { s with pending := rest }) hc hr hm h)))
  | true =>
    have hb : busy s = false := by simpa [waits_of_commandWrite hc] using hw
    rcases hostAct_cases h with ⟨i, _, hi⟩ | ⟨hm', _⟩ | ⟨hr', _⟩ | ⟨v, rfl⟩ | ⟨_, _, ht⟩
    · rcases exec_control hi with hs | ⟨_, hs⟩
      · exact .inr (.inr (.inr hs))
      · exact .inr (.inl ⟨hb, by simp [hl, hc], rest, hs⟩)
    · exact absurd hm' hm
    · exact absurd hr' hr
    · exact .inr (.inr (.inr ⟨rfl, rfl, rfl, rfl⟩))
    · rw [ht]
      exact .inr (.inr (.inr ⟨rfl, rfl, rfl, rfl⟩))

end Sys2Proof.Machine
end

section
/-! PROOFS. The invariant of 10_state R29 and R26: at reset, and kept by every kind of step. -/

namespace Sys2Proof.Machine

/-- EXTRACT gives the sentinel or one of the seven non-zero reconstructed bytes (40_bit_layout R93). -/
theorem extract_mem_of_ne_sentinel {p : Pixel} (h : extract p ≠ sentinel) :
    extract p ∈ [0x20#8, 0x40#8, 0x60#8, 0x80#8, 0xA0#8, 0xC0#8, 0xE0#8] := by
  have carrier : ∀ c : Byte, carrierBit c = 0#8 ∨ carrierBit c = 1#8 := fun c => by
    have : carrierBit c = 0#8 ∨ carrierBit c = 1#8 ↔ (carrierBit c).toNat = 0 ∨ (carrierBit c).toNat = 1 := by
      simp [← BitVec.toNat_inj]
    rw [this, carrierBit, BitVec.toNat_and]
    simpa [Nat.and_one_is_mod] using Nat.mod_two_eq_zero_or_one c.toNat
  unfold extract at h ⊢
  rcases carrier p.r with hr | hr <;> rcases carrier p.g with hg | hg <;> rcases carrier p.b with hb | hb <;>
    rw [hr, hg, hb] at h ⊢ <;> revert h <;> decide

/-- The invariant speaks of none of the working registers, the open parameters, the script, the port word, the readback
and the trace. -/
theorem Inv.congr {s t : State} (h : Inv s)
    (e : t = { s with m := t.m, pr := t.pr, pg := t.pg, pb := t.pb, cfg := t.cfg, pending := t.pending,
                      portWord := t.portWord, readback := t.readback, trace := t.trace }) : Inv t := by
  rw [e]
  exact ⟨h.spaces, h.idle, h.enc, h.dec, h.err, h.out, h.scan, h.outLen, h.launch⟩

theorem Inv.taken {s u : State} (h : Inv s) (hu : Taken s u) : Inv u :=
  h.congr (by rw [hu])

/-- In IDLE after a reset the invariant is about the spaces alone. -/
theorem inv_of_idle {s : State} (hs : s.seq = .idle) (spaces : SpacesCanonical s) (err : s.err = .none) (hi : s.i = 0)
    (hout : s.out = []) : Inv s where
  spaces := spaces
  idle _ := ⟨err, hi, hout⟩
  enc h := by simp [hs] at h
  dec h := by simp [hs] at h
  err h := absurd err h
  out b hb := by simp [hout] at hb
  scan := by simp [ScanInGrid, hi]
  outLen := by simp [OutInGrid, hout]
  launch := ⟨fun h => by simp [busy, hs] at h, fun h => by simp [hs] at h⟩

/-- In HALT only the bounds by the recorded launches and what OUT holds are asked. -/
theorem inv_of_halt {s : State} (hs : s.seq = .halt) (spaces : SpacesCanonical s) (out : OutReconstructed s)
    (scan : ScanInGrid s) (outLen : OutInGrid s) : Inv s where
  spaces := spaces
  idle h := by simp [hs] at h
  enc h := by simp [hs] at h
  dec h := by simp [hs] at h
  err _ := hs
  out := out
  scan := scan
  outLen := outLen
  launch := ⟨fun h => by simp [busy, hs] at h, fun h => by simp [hs] at h⟩

/-- In ENC the bound on I follows from the capacity check and the recorded dimensions. -/
theorem inv_of_enc {s : State} (hs : s.seq = .enc) (spaces : SpacesCanonical s) (err : s.err = .none)
    (cap : s.len + 1 ≤ s.w * s.h) (hi : s.i ≤ s.len) (dims : s.w = s.launch.w ∧ s.h = s.launch.h)
    (out : OutReconstructed s) (outLen : OutInGrid s) : Inv s where
  spaces := spaces
  idle h := by simp [hs] at h
  enc _ := ⟨err, cap, hi⟩
  dec h := by simp [hs] at h
  err h := absurd err h
  out := out
  scan := by
    rw [ScanInGrid, ← dims.1, ← dims.2]
    omega
  outLen := outLen
  launch := ⟨fun _ => dims, fun h => by simp [hs] at h⟩

/-- In DEC the bounds on I and OUT follow from one byte per pixel visited and the recorded dimensions. -/
theorem inv_of_dec {s : State} (hs : s.seq = .dec) (spaces : SpacesCanonical s) (err : s.err = .none)
    (hlen : s.out.length = s.i) (hi : s.i ≤ s.w * s.h) (dims : s.w = s.launch.w ∧ s.h = s.launch.h)
    (outDims : s.w = s.launch.outW ∧ s.h = s.launch.outH) (out : OutReconstructed s) : Inv s where
  spaces := spaces
  idle h := by simp [hs] at h
  enc h := by simp [hs] at h
  dec _ := ⟨err, hlen, hi⟩
  err h := absurd err h
  out := out
  scan := by rwa [ScanInGrid, ← dims.1, ← dims.2]
  outLen := by rwa [OutInGrid, ← outDims.1, ← outDims.2, hlen]
  launch := ⟨fun _ => dims, fun _ => outDims⟩

theorem inv_resetBlock {s : State} (spaces : SpacesCanonical s) : Inv (resetBlock s) :=
  inv_of_idle rfl spaces rfl rfl rfl

theorem Inv.encStart {s : State} (h : Inv s) : Inv (encStart s) := by
  unfold Machine.encStart
  split
  · next ha => exact inv_of_enc rfl h.spaces rfl ((admits_iff ..).1 ha) (Nat.zero_le _) ⟨rfl, rfl⟩ h.out h.outLen
  · exact inv_of_halt rfl h.spaces h.out (Nat.zero_le _) h.outLen

theorem Inv.decStart {s : State} (h : Inv s) : Inv (decStart s) :=
  inv_of_dec rfl h.spaces rfl rfl (Nat.zero_le _) ⟨rfl, rfl⟩ ⟨rfl, rfl⟩ fun _ hb => absurd hb List.not_mem_nil

theorem Inv.usageStart {s : State} (h : Inv s) : Inv (usageStart s) :=
  inv_of_halt rfl h.spaces h.out (Nat.zero_le _) h.outLen

/-- An index below W*H in an operation leaves the scan index within its launch when it is passed. -/
theorem Inv.succ_le_launch {s : State} (h : Inv s) (hb : busy s = true) (hi : s.i < s.w * s.h) :
    s.i + 1 ≤ s.launch.w * s.launch.h := by
  obtain ⟨hw, hh⟩ := h.launch.1 hb
  rw [← hw, ← hh]
  exact hi

theorem Inv.encNext {s : State} (h : Inv s) (e : s.seq = .enc) (hi : s.i < s.w * s.h) : Inv (encNext s) := by
  obtain ⟨herr, hcap, hlen⟩ := h.enc e
  have hb : busy s = true := (busy_iff s).2 (.inl e)
  have spaces : SpacesCanonical (Machine.encNext s) := ⟨Memory.write_wf _ _ _ h.spaces.1, h.spaces.2⟩
  by_cases hl : s.i = s.len
  · exact inv_of_halt (by simp [hl]) spaces h.out (h.succ_le_launch hb hi) h.outLen
  · have hi' : s.i + 1 ≤ s.len := by omega
    exact inv_of_enc (by simp [hl, e]) spaces herr hcap hi' (h.launch.1 hb) h.out h.outLen

theorem Inv.decNext {s : State} (h : Inv s) (e : s.seq = .dec) (hi : s.i < s.w * s.h) : Inv (decNext s) := by
  obtain ⟨herr, hlen, _⟩ := h.dec e
  have hb : busy s = true := (busy_iff s).2 (.inr e)
  by_cases hx : extract (visited s) = sentinel
  · have ho : (Machine.decNext s).out = s.out := by simp [hx]
    refine inv_of_halt (by simp [hx]) h.spaces ?_ (h.succ_le_launch hb hi) ?_
    · rw [OutReconstructed, ho]
      exact h.out
    · rw [OutInGrid, ho]
      exact h.outLen
  · have ho : (Machine.decNext s).out = s.out ++ [extract (visited s)] := by simp [hx]
    refine inv_of_dec (by simp [hx, e]) h.spaces herr ?_ hi (h.launch.1 hb) (h.launch.2 e) ?_
    · rw [ho, List.length_append, hlen]
      rfl
    · intro b hm
      rw [ho, List.mem_append, List.mem_singleton] at hm
      rcases hm with hm | rfl
      · exact h.out b hm
      · exact extract_mem_of_ne_sentinel hx

theorem Inv.coreStep {s t : State} (h : Inv s) (hc : coreStep s = .next t) : Inv t := by
  rcases coreStep_cases hc with ⟨_, rfl⟩ | ⟨e, hi, rfl⟩ | ⟨_, _, rfl⟩ | ⟨e, hi, rfl⟩
  · exact h
  · exact h.encNext e hi
  · exact inv_of_halt rfl h.spaces h.out h.scan h.outLen
  · exact h.decNext e hi

theorem Inv.exec {i : Instr} {s t : State} (h : Inv s) (he : exec i s = .next t) : Inv t := by
  rcases exec_cases he with ⟨_, _, _, rfl⟩ | ⟨_, _, _, rfl⟩ | ⟨_, _, rfl⟩ | ⟨_, _, _, rfl⟩ | ⟨_, _, _, rfl⟩ |
    ⟨_, _, _, rfl⟩ | ⟨_, _, _, rfl⟩ | ⟨_, _, rfl⟩ | ⟨_, _, _, _, rfl⟩
  · exact h.encStart
  · exact h.decStart
  · exact h.usageStart
  all_goals exact h.congr rfl

/-- A block that is not busy keeps the invariant under any change of the host's own things: no clause that then has
force reads W, H, LEN or the contents of a space. -/
theorem Inv.hostOnly {s t : State} (h : Inv s) (hb : busy s = false) (ho : HostOnly s t) : Inv t := by
  obtain ⟨spaces, ht⟩ := ho
  have hs : t.seq = s.seq := by rw [ht]
  have notBusy : busy t ≠ true := by simp [busy_congr hs, hb]
  exact
    { spaces := spaces h.spaces
      idle := by rw [ht]; exact h.idle
      enc := fun q => absurd ((busy_iff t).2 (.inl q)) notBusy
      dec := fun q => absurd ((busy_iff t).2 (.inr q)) notBusy
      err := by rw [ht]; exact h.err
      out := by rw [ht]; exact h.out
      scan := by rw [ht]; exact h.scan
      outLen := by rw [ht]; exact h.outLen
      launch := ⟨fun q => absurd q notBusy, fun q => absurd ((busy_iff t).2 (.inr q)) notBusy⟩ }

/-- Settles O38: an instruction, the core's transition, a reset, a read and a change of the host's own things each keep
the invariant, and these are all the steps there are. -/
theorem stepKeepsInv : Obligations.StepKeepsInv := by
  intro s t h hst
  obtain ⟨u, hu, hc⟩ := step_next_cases hst
  have hinv : Inv u := h.taken hu
  rcases hc with ⟨i, he⟩ | hc | rfl | ⟨v, rfl⟩ | ⟨hb, ho⟩
  · exact hinv.exec he
  · exact hinv.coreStep hc
  · exact inv_resetBlock hinv.spaces
  · exact hinv.congr rfl
  · exact hinv.hostOnly hb ho

/-- Settles O37: at reset both spaces are empty, so canonical, and R28's values are what IDLE asks. -/
theorem invAtReset : Obligations.InvAtReset :=
  inv_of_idle rfl ⟨Memory.nil_wf _, Memory.nil_wf _⟩ rfl rfl rfl

end Sys2Proof.Machine
end

section
/-! PROOFS. How STATE, ERR, I, OUT, W, H and the record of launches change in a step (10_state R14, R16, R18, R26, R29;
60_exceptions R175, R178, R183). -/

namespace Sys2Proof.Machine

/-- What the start steps of the four command words have in common (41_encoder R111, 42_decoder R141, 60_exceptions R173):
`s` is the state the command is given in. -/
structure Started (s t : State) : Prop where
  i : t.i = 0
  launchW : t.launch.w = s.w
  launchH : t.launch.h = s.h
  notIdle : t.seq ≠ .idle
  err : t.err ≠ .none → t.seq = .halt
  enc : t.seq = .enc → s.len + 1 ≤ s.w * s.h ∧ t.err = .none
  dec : t.seq = .dec → t.err = .none ∧ t.out = []
  out : t.out = s.out ∨ t.out = []

theorem started_encStart (s : State) : Started s (encStart s) := by
  unfold encStart
  split
  · next ha => constructor <;> simp [(admits_iff ..).1 ha]
  · constructor <;> simp

theorem started_decStart (s : State) : Started s (decStart s) := by
  unfold decStart
  constructor <;> simp

theorem started_usageStart (s : State) : Started s (usageStart s) := by
  unfold usageStart
  constructor <;> simp

theorem started_of_start {s t : State} (h : t = encStart s ∨ t = decStart s ∨ t = usageStart s) : Started s t := by
  rcases h with rfl | rfl | rfl
  · exact started_encStart s
  · exact started_decStart s
  · exact started_usageStart s

/-- The core's transition changes STATE to HALT only: after the terminator in ENC, on exhaustion or on a sentinel in
DEC (41_encoder R114, 42_decoder R143). -/
theorem coreStep_ends {s t : State} (h : coreStep s = .next t) (hq : t.seq ≠ s.seq) :
    t.seq = .halt ∧
      ((s.seq = .enc ∧ s.i = s.len ∧ t.i = s.len + 1) ∨
        (s.seq = .dec ∧ ((s.i = s.w * s.h ∧ t.err = .unterminated) ∨
          (extract (pixelOfIndex s s.i) = 0x00#8 ∧ t.i = s.i + 1)))) := by
  rcases coreStep_cases h with ⟨_, rfl⟩ | ⟨e, _, rfl⟩ | ⟨e, hi, rfl⟩ | ⟨e, _, rfl⟩
  · exact absurd rfl hq
  · have hl : s.i = s.len := by
      by_contra hl
      exact hq (by simp [hl])
    exact ⟨by simp [hl], .inl ⟨e, hl, by simp [hl]⟩⟩
  · exact ⟨rfl, .inr ⟨e, .inl ⟨hi, rfl⟩⟩⟩
  · have hx : extract (visited s) = sentinel := by
      by_contra hx
      exact hq (by simp [hx])
    exact ⟨by simp [hx], .inr ⟨e, .inr ⟨hx, rfl⟩⟩⟩

/-- Settles O40: STATE changes only by a start step, which a block that is not busy makes on a CMD write, and by the
pixel step that ends an operation. -/
theorem sequencerTransitions : Obligations.SequencerTransitions := by
  intro s t hp hst hr
  by_cases hq : t.seq = s.seq
  · rw [hq]
    exact ⟨id, fun e n => absurd e n, fun e n => absurd e n, fun e n => absurd e n, fun e n => absurd e n,
      fun e n => absurd e n, fun e n => absurd e n⟩
  rcases step_control_cases hp hst with ⟨h, _⟩ | ⟨hb, hc, rest, ht⟩ | ⟨rest, hcore⟩ | ⟨hs, _⟩
  · exact absurd h hr
  · have hstart := started_of_start ht
    have notEnc : s.seq ≠ .enc := fun e => by simp [(busy_iff s).2 (.inl e)] at hb
    have notDec : s.seq ≠ .dec := fun e => by simp [(busy_iff s).2 (.inr e)] at hb
    refine ⟨fun e => absurd e hstart.notIdle, fun _ _ => hc, fun e _ => ?_, fun e _ => ?_, fun _ _ => hc,
      fun e => absurd e notEnc, fun e => absurd e notDec⟩
    · obtain ⟨cap, err⟩ := hstart.enc e
      exact ⟨hb, hc, cap, err, hstart.i⟩
    · obtain ⟨err, out⟩ := hstart.dec e
      exact ⟨hb, hc, err, hstart.i, out⟩
  · obtain ⟨hh, ⟨e, hend⟩ | ⟨e, hend⟩⟩ := coreStep_ends hcore hq <;> dsimp only at e <;>
      simp only [hh, e, ne_eq, reduceCtorEq, not_false_eq_true, false_implies, true_implies, true_and, and_true]
    · exact hend
    · exact hend
  · exact absurd hs hq

/-- Settles O41: the start steps clear ERR and set I to 0, the exhausted decode raises UnterminatedMessage, and nothing
else but a reset writes ERR. -/
theorem errorRegisterChanges : Obligations.ErrorRegisterChanges := by
  intro s t hp hst hne
  rcases step_control_cases hp hst with ⟨hr, rest, rfl⟩ | ⟨hb, hc, rest, ht⟩ | ⟨rest, hcore⟩ | ⟨_, he, _⟩
  · exact ⟨fun h => absurd rfl h, .inl hr⟩
  · have hstart := started_of_start ht
    exact ⟨hstart.err, .inr (.inl ⟨hb, hc, hstart.i⟩)⟩
  · rcases coreStep_cases hcore with ⟨_, rfl⟩ | ⟨_, _, rfl⟩ | ⟨e, hi, rfl⟩ | ⟨_, _, rfl⟩
    · exact absurd rfl hne
    · exact absurd rfl hne
    · exact ⟨fun _ => rfl, .inr (.inr ⟨e, rfl, hi⟩)⟩
    · exact absurd rfl hne
  · exact absurd he hne

/-! ### I, OLEN, W, H and the record of launches -/

/-- What a step may do to I and OUT, in terms of the grid that stands at its start: leave them, or leave them within. -/
def ExtentKept (s t : State) : Prop :=
  (t.i = s.i ∨ t.i ≤ s.w * s.h) ∧ (t.out = s.out ∨ t.out.length ≤ s.w * s.h)

theorem exec_extent {i : Instr} {s t : State} (h : exec i s = .next t) : ExtentKept s t := by
  have start : ∀ {t}, Started s t → ExtentKept s t := fun hs =>
    ⟨.inr (by rw [hs.i]; exact Nat.zero_le _), hs.out.imp_right fun ho => by simp [ho]⟩
  rcases exec_cases h with ⟨_, _, _, rfl⟩ | ⟨_, _, _, rfl⟩ | ⟨_, _, rfl⟩ | ⟨_, _, _, rfl⟩ | ⟨_, _, _, rfl⟩ |
    ⟨_, _, _, rfl⟩ | ⟨_, _, _, rfl⟩ | ⟨_, _, rfl⟩ | ⟨_, _, _, _, rfl⟩
  · exact start (started_encStart s)
  · exact start (started_decStart s)
  · exact start (started_usageStart s)
  all_goals exact ⟨.inl rfl, .inl rfl⟩

/-- A pixel step starts below W*H, and in DEC with one byte of OUT for each pixel visited. -/
theorem coreStep_extent {s t : State} (hdec : DecInRange s) (h : coreStep s = .next t) : ExtentKept s t := by
  rcases coreStep_cases h with ⟨_, rfl⟩ | ⟨_, hi, rfl⟩ | ⟨_, _, rfl⟩ | ⟨e, hi, rfl⟩
  · exact ⟨.inl rfl, .inl rfl⟩
  · exact ⟨.inr hi, .inl rfl⟩
  · exact ⟨.inl rfl, .inl rfl⟩
  · obtain ⟨_, hlen, _⟩ := hdec e
    refine ⟨.inr hi, ?_⟩
    by_cases hx : extract (visited s) = sentinel
    · exact .inl (by simp [hx])
    · have : (decNext s).out.length = s.i + 1 := by rw [decNext_out, if_neg hx, List.length_append, hlen]; rfl
      exact .inr (by rw [this]; exact hi)

theorem step_extent {s t : State} (h : Inv s) (hst : step s = .next t) : ExtentKept s t := by
  obtain ⟨u, hu, hc⟩ := step_next_cases hst
  have hdec : DecInRange u := (h.taken hu).dec
  have moved : ExtentKept u t → ExtentKept s t := by rw [hu]; exact id
  apply moved
  rcases hc with ⟨i, he⟩ | hc | rfl | ⟨v, rfl⟩ | ⟨_, _, ht⟩
  · exact exec_extent he
  · exact coreStep_extent hdec hc
  · exact ⟨.inr (Nat.zero_le _), .inr (Nat.zero_le _)⟩
  · exact ⟨.inl rfl, .inl rfl⟩
  · rw [ht]
    exact ⟨.inl rfl, .inl rfl⟩

/-- W and H change only by a line of the script that presents them, in a block that is not busy (70_reset R206). -/
theorem dimensions_change {s t : State} (hst : step s = .next t) (hne : ¬ (t.w = s.w ∧ t.h = s.h)) :
    busy s = false ∧ s.portWord = none ∧ s.pending.head?.any (presentsDimensions s.cfg) = true := by
  rcases step_cases s with ⟨pw, _, he⟩ | ⟨_, he⟩ | ⟨mv, rest, ⟨hp, hl⟩, hw, he⟩ <;> rw [he] at hst
  · obtain ⟨i, _, hi⟩ := runWord_cases hst
    exact absurd (exec_dimensions hi) hne
  · exact absurd (coreStep_dimensions hst) hne
  · cases hm : presentsDimensions s.cfg mv with
    | false => exact absurd (hostAct_dimensions (s := { s with pending := rest }) hm hst) hne
    | true =>
      have hb : busy s = false := by simpa [waits_of_presentsDimensions hm] using hw
      exact ⟨hb, hp, by simp [hl, hm]⟩

/-- The core's transition leaves the record of launches. -/
theorem coreStep_launch {s t : State} (h : coreStep s = .next t) : t.launch = s.launch := by
  rcases coreStep_cases h with ⟨_, rfl⟩ | ⟨_, _, rfl⟩ | ⟨_, _, rfl⟩ | ⟨_, _, rfl⟩ <;> rfl

/-- Settles O39: the bounds by the launch are the invariant's after the step; a step that leaves W and H leaves I and
OUT or ends within the grid; W and H change by a presenting line alone, the record by a reset or a start step. -/
theorem scanIndexStaysInGrid : Obligations.ScanIndexStaysInGrid := by
  refine ⟨fun s t h hst => ?_, fun s t hst hne => dimensions_change hst hne, fun s t hp hst hne => ?_⟩
  · have ht : Inv t := stepKeepsInv s t h hst
    obtain ⟨hi, ho⟩ := step_extent h hst
    refine ⟨ht.scan, ht.outLen, fun hb => ?_, fun hw hh => ?_⟩
    · obtain ⟨hw, hh⟩ := ht.launch.1 hb
      exact ⟨by rw [hw, hh]; exact ht.scan, hw, hh⟩
    · rw [hw, hh]
      exact ⟨fun h0 => hi.elim (fun e => by rwa [e]) id, fun h0 => ho.elim (fun e => by rwa [olen, e]) id⟩
  · rcases step_control_cases hp hst with ⟨hr, _⟩ | ⟨hb, hc, rest, hs⟩ | ⟨rest, hcore⟩ | ⟨_, _, _, hl⟩
    · exact .inl hr
    · have hstart := started_of_start hs
      exact .inr ⟨hb, hc, hstart.launchW, hstart.launchH⟩
    · exact absurd (coreStep_launch hcore) hne
    · exact absurd hl hne

end Sys2Proof.Machine
end

section
/-! PROOFS. The scheduling of the pixel steps, what they leave (10_state R16, R29 items 6 and 7, 40_bit_layout R97), and
the transfers they are made of (10_state R13). -/

namespace Sys2Proof.Machine

/-- Settles O7: a busy block whose script waits takes the core's transition, and so does one with no line left. -/
theorem busyBlockTakesItsPixelStep : Obligations.BusyBlockTakesItsPixelStep := by
  refine ⟨fun s hw e => ?_, fun s hw e => ?_, fun s hl e => ?_⟩
  · rw [step_of_scriptWaits ((busy_iff s).2 (.inl e)) hw, coreStep_of_enc e]
  · rw [step_of_scriptWaits ((busy_iff s).2 (.inr e)) hw, coreStep_of_dec e]
  · rw [step_of_nil hl]
    exact e.elim coreStep_of_idle coreStep_of_halt

/-- ENC_PIX embeds the step's byte in the visited pixel and leaves every other pixel. -/
theorem pixelAt_encNext (s : State) (x y : Nat) :
    pixelAt (encNext s) x y =
      if (x, y) = (scanX s.w s.i, scanY s.w s.i) then embed (encByte s) (visited s) else pixelAt s x y := by
  split
  · next h =>
    obtain ⟨rfl, rfl⟩ := Prod.mk.inj h
    exact Memory.read_write_self ..
  · next h => exact Memory.read_write_of_ne _ _ _ (cellKey_ne h)

/-- The seven cover bits of each channel of `p` are those of `q`. -/
def SameCover (p q : Pixel) : Prop :=
  ∀ k, 0 < k → p.r.getLsbD k = q.r.getLsbD k ∧ p.g.getLsbD k = q.g.getLsbD k ∧ p.b.getLsbD k = q.b.getLsbD k

theorem sameCover_embed (m : Byte) (p : Pixel) : SameCover (embed m p) p := fun _ hk =>
  ⟨embedChannel_cover _ _ _ hk, embedChannel_cover _ _ _ hk, embedChannel_cover _ _ _ hk⟩

theorem sameCover_encNext (s : State) (x y : Nat) : SameCover (pixelAt (encNext s) x y) (pixelAt s x y) := by
  rw [pixelAt_encNext]
  split
  · next h =>
    obtain ⟨rfl, rfl⟩ := Prod.mk.inj h
    exact sameCover_embed _ _
  · exact fun _ _ => ⟨rfl, rfl, rfl⟩

/-- Settles O25: ENC_PIX writes the visited pixel's carrier bits, DEC_PIX no pixel at all, and the other fields stand by
the equations of `encNext`, `decNext` and `raise`. -/
theorem pixelStepFrame : Obligations.PixelStepFrame := by
  intro s t hb hw hst
  rw [step_of_scriptWaits hb hw] at hst
  rcases coreStep_cases hst with ⟨hn, _⟩ | ⟨e, _, rfl⟩ | ⟨e, _, rfl⟩ | ⟨e, _, rfl⟩
  · simp [hb] at hn
  · refine ⟨rfl, rfl, rfl, rfl, rfl, rfl, rfl, rfl, rfl, fun hd => by simp [e] at hd, fun _ => ⟨rfl, rfl⟩,
      fun x y hne => ?_, sameCover_encNext s⟩
    rw [pixelAt_encNext, if_neg hne]
  · exact ⟨rfl, rfl, rfl, rfl, rfl, rfl, rfl, rfl, rfl, fun _ => rfl, fun he => by simp [e] at he,
      fun _ _ _ => rfl, fun _ _ _ _ => ⟨rfl, rfl, rfl⟩⟩
  · exact ⟨rfl, rfl, rfl, rfl, rfl, rfl, rfl, rfl, rfl, fun _ => rfl, fun he => by simp [e] at he,
      fun _ _ _ => rfl, fun _ _ _ _ => ⟨rfl, rfl, rfl⟩⟩

/-- A byte is its stored and dropped fields put together (30_encoding R71). -/
theorem payloadBits_extract (b : Byte) : payloadBits (b.extractLsb' 5 3) (b.extractLsb' 0 5) = b := by
  unfold payloadBits
  rw [BitVec.extractLsb'_append_extractLsb'_eq_extractLsb' (by rfl)]
  simp

/-- A byte is its cover and carrier bits put together (30_encoding R70). -/
theorem channelBits_extract (b : Byte) : channelBits (b.extractLsb' 1 7) (b.extractLsb' 0 1) = b := by
  unfold channelBits
  rw [BitVec.extractLsb'_append_extractLsb'_eq_extractLsb' (by rfl)]
  simp

/-- A word on the message port decodes to the instruction that takes its byte into M. -/
theorem decode_msg_exec (b : Byte) (s : State) :
    ∃ i, decode { port := .msg, bits := b } = .ok i ∧ exec i s = .next (loadM b s) :=
  ⟨_, rfl, by simp only [exec, execPayloadByte, payloadBits_extract]⟩

theorem decode_laneR_exec (b : Byte) (s : State) :
    ∃ i, decode { port := .laneR, bits := b } = .ok i ∧ exec i s = .next (loadPR b s) :=
  ⟨_, rfl, by simp only [exec, execChannelR, channelBits_extract]⟩

theorem decode_laneG_exec (b : Byte) (s : State) :
    ∃ i, decode { port := .laneG, bits := b } = .ok i ∧ exec i s = .next (loadPG b s) :=
  ⟨_, rfl, by simp only [exec, execChannelG, channelBits_extract]⟩

theorem decode_laneB_exec (b : Byte) (s : State) :
    ∃ i, decode { port := .laneB, bits := b } = .ok i ∧ exec i s = .next (loadPB b s) :=
  ⟨_, rfl, by simp only [exec, execChannelB, channelBits_extract]⟩

/-- Settles O26: the step leaves the payload byte in M and the visited pixel's channels in PR, PG, PB (`encNext`), and
each data word puts its byte in the same register. -/
theorem dataWordsMakeTheStepsTransfers : Obligations.DataWordsMakeTheStepsTransfers := by
  intro s t e hi hl hw hst
  have ht : t = encNext s := by
    have hlt : s.i < pixelCount s.w s.h := lt_trans hi hl
    rw [step_of_scriptWaits ((busy_iff s).2 (.inl e)) hw, coreStep_of_enc e, encPix_of_lt hlt] at hst
    cases hst
    rfl
  obtain ⟨im, dm, em⟩ := decode_msg_exec (msgByte s s.i) s
  obtain ⟨ir, dr, er⟩ := decode_laneR_exec (visited s).r (loadM (msgByte s s.i) s)
  obtain ⟨ig, dg, eg⟩ := decode_laneG_exec (visited s).g (loadPR (visited s).r (loadM (msgByte s s.i) s))
  obtain ⟨ib, db, eb⟩ := decode_laneB_exec (visited s).b
    (loadPG (visited s).g (loadPR (visited s).r (loadM (msgByte s s.i) s)))
  refine ⟨im, ir, ig, ib, _, _, _, _, dm, dr, dg, db, em, er, eg, eb, ?_⟩
  simp [ht, encByte, hi]

end Sys2Proof.Machine
end

section
/-! PROOFS. Spaces in canonical form that read alike are the same data (log 16). -/

namespace Sys2Proof.Machine

/-- In canonical form the entries are the keys that read as something other than the default, with what they read as. -/
theorem Memory.mem_iff_read {α : Type} {d : α} {m : Memory α} (h : Memory.wf d m) (c : Nat × α) :
    c ∈ m ↔ c.2 ≠ d ∧ Memory.read d m c.1 = c.2 := by
  refine ⟨fun hc => ⟨h.2 c hc, Memory.read_of_mem d h.1 hc⟩, fun ⟨hne, hr⟩ => ?_⟩
  by_contra hc
  refine hne (hr ▸ Memory.read_of_forall_ne d fun c' hc' hk => hc ?_)
  have : c' = c := Prod.ext hk (by rw [← hr, ← hk, Memory.read_of_mem d h.1 hc'])
  exact this ▸ hc'

/-- The canonical form is extensional: rising lists with the same entries are equal. -/
theorem Memory.ext_read {α : Type} {d : α} {m m' : Memory α} (h : Memory.wf d m) (h' : Memory.wf d m')
    (hr : ∀ a, Memory.read d m a = Memory.read d m' a) : m = m' := by
  have irrefl : Std.Irrefl fun c c' : Nat × α => c.1 < c'.1 := ⟨fun c => lt_irrefl c.1⟩
  have antisymm : Std.Antisymm fun c c' : Nat × α => c.1 < c'.1 := ⟨fun _ _ h₁ h₂ => absurd h₁ h₂.asymm⟩
  exact h.1.eq_of_mem_iff h'.1 fun c => by rw [Memory.mem_iff_read h, Memory.mem_iff_read h', hr]

/-- Settles O29: the extensionality of the canonical form, for each of the two spaces. -/
theorem equalReadsEqualSpaces : Obligations.EqualReadsEqualSpaces :=
  ⟨fun _ _ h h' hr => Memory.ext_read h h' hr, fun _ _ h h' hr => Memory.ext_read h h' hr⟩

end Sys2Proof.Machine
end

section
/-! PROOFS. What the host's lines do, one step each: words, single cells, registers by name and at their bus addresses
(10_state R16 to R26, 93 U9). -/

namespace Sys2Proof.Machine

/-! ### Words -/

theorem runWord_of_decode {pw : PortWord} {i : Instr} (h : decode pw = .ok i) (s : State) : runWord pw s = exec i s := by
  simp [runWord, h]

theorem runWord_of_reject {pw : PortWord} {r : Reject} (h : decode pw = .error r) (s : State) :
    runWord pw s = .refused (.rejectedWord r) := by
  simp [runWord, h]

theorem hostPort_iff (p : Port) : hostPort p = true ↔ p = .cmd ∨ p = .status := by
  cases p <;> simp [hostPort]

/-- Settles O5: the word on the port is run at once; a word in the script is run when its turn comes, if it stands at a
port of the host's. -/
theorem stepRunsDecodedWord : Obligations.StepRunsDecodedWord := by
  intro s pw
  refine ⟨fun hp => ?_, fun rest hl hturn => ?_⟩
  · rw [step_of_portWord hp]
    exact ⟨fun i hi => runWord_of_decode hi _, fun r hr => runWord_of_reject hr _⟩
  · have hb : (busy s && waitsForDone s.cfg (.word pw)) = false := by
      rcases hturn with hb | hs <;> simp [waitsForDone, *]
    rw [step_of_move hl hb, hostAct, ← hostPort_iff]
    refine ⟨fun hp => ?_, fun hp => if_neg hp⟩
    rw [if_pos hp]
    exact ⟨fun i hi => runWord_of_decode hi _, fun r hr => runWord_of_reject hr _⟩

/-- What `decodeTableWord` accepts is the decoding of the word put on the port. -/
theorem decode_of_decodeTableWord {nbits w : Nat} {i : Instr} (h : decodeTableWord nbits w = some i) :
    ∃ pw, tableWord nbits w = some pw ∧ decode pw = .ok i := by
  unfold decodeTableWord at h
  split at h
  · next pw hpw =>
    refine ⟨pw, hpw, ?_⟩
    cases hd : decode pw with
    | ok j => simpa [hd, Except.toOption] using h
    | error r => simp [hd, Except.toOption] at h
  · cases h

/-- Settles O6: the word `withFetchWord` puts on a port is the one `decodeTableWord` decodes, and the next step takes it. -/
theorem fetchWordRuns : Obligations.FetchWordRuns := by
  intro s nbits w i h
  obtain ⟨pw, hpw, hd⟩ := decode_of_decodeTableWord h
  have hs : s.withFetchWord nbits w = presentWord pw s := by simp [State.withFetchWord, hpw]
  rw [hs, step_of_portWord rfl, runWord_of_decode hd]
  rfl

/-! ### STATUS -/

/-- STATUS bit by bit: BUSY, DONE, and ERR above them (10_state R20). -/
theorem statusOf_bits (s : State) :
    (statusOf s).getLsbD 0 = busy s ∧ (statusOf s).getLsbD 1 = done s ∧ (statusOf s).extractLsb' 2 2 = s.err.code := by
  unfold statusOf
  cases s.err <;> cases done s <;> cases busy s <;> exact ⟨rfl, rfl, rfl⟩

theorem done_iff (s : State) : done s = true ↔ s.seq = .halt := by
  cases h : s.seq <;> simp [done, h]

theorem err_of_ne_halt {s : State} (herr : ErrOnlyInHalt s) (hs : s.seq ≠ .halt) : s.err = .none :=
  by_contra fun he => hs (herr he)

/-- With no error outside HALT, a block that is not busy shows one of five of R20's legal values. -/
theorem statusOf_mem_of_not_busy {s : State} (herr : ErrOnlyInHalt s) (hs : s.seq = .idle ∨ s.seq = .halt) :
    statusOf s ∈ [0b0000#4, 0b0010#4, 0b0110#4, 0b1010#4, 0b1110#4] := by
  rcases hs with hs | hs
  · have he := err_of_ne_halt herr (by simp [hs])
    simp [statusOf, busy, done, hs, he, ErrCode.code]
  · cases he : s.err <;> simp [statusOf, busy, done, hs, he, ErrCode.code]

/-- While busy no error stands, so STATUS is `0b0001`. -/
theorem statusOf_of_busy {s : State} (herr : ErrOnlyInHalt s) (hs : s.seq = .enc ∨ s.seq = .dec) :
    statusOf s = 0b0001#4 := by
  have he := err_of_ne_halt herr (by rintro h; simp [h] at hs)
  rcases hs with hs | hs <;> simp [statusOf, busy, done, hs, he, ErrCode.code]

/-- Settles O16: the answer is `statusOf`, whose bits are BUSY, DONE and the code of ERR. -/
theorem statusReadAnswersTheView : Obligations.StatusReadAnswersTheView := by
  intro s e d b
  obtain ⟨hbusy, hdone, herr⟩ := statusOf_bits s
  refine ⟨statusOf s, rfl, ?_, ?_, ?_, fun h => statusOf_mem_of_not_busy h.err, fun h => statusOf_of_busy h.err⟩
  · rw [hbusy, busy_iff]
  · rw [hdone, done_iff]
  · rw [herr]
    cases s.err <;> rfl

/-! ### Lines of a block that is not busy -/

/-- A block that is not busy runs the next line of the script, whatever it is. -/
theorem step_of_not_busy {s : State} {mv : HostMove} {rest : List HostMove} (hb : busy s = false)
    (hl : NextLines s (mv :: rest)) : step s = hostAct mv { s with pending := rest } :=
  step_of_move hl (by simp [hb])

/-- Settles O32: each line is one checked access, and a write to a space is read back there and nowhere else. -/
theorem hostCellAccess : Obligations.HostCellAccess := by
  intro s rest hb
  refine ⟨fun x y p hl => ?_, fun x y hl => ?_, fun k b hl => ?_, fun k hl => ?_⟩ <;> rw [step_of_not_busy hb hl]
  · simp only [hostAct, hostSetPixel, inGrid_iff]
    refine ⟨fun hin => ⟨_, if_pos hin, rfl, pixelAt_putPixel_self .., fun x' y' hne => ?_⟩, fun hout => if_neg hout⟩
    exact pixelAt_putPixel_of_ne p _ hne
  · simp only [hostAct, hostGetPixel, inGrid_iff]
    exact ⟨fun hin => if_pos hin, fun hout => if_neg hout⟩
  · simp only [hostAct, hostSetMsg]
    refine ⟨fun hin => ⟨_, if_pos hin, rfl, Memory.read_write_self .., fun k' hne => ?_⟩, fun hout => if_neg hout⟩
    exact Memory.read_write_of_ne _ _ _ hne
  · simp only [hostAct, hostGetMsg]
    exact ⟨fun hin => if_pos hin, fun hout => if_neg hout⟩

/-- Settles O33: a register line is `readReg` or `supplyReg` of its name, and OUT is answered whole. -/
theorem registerAccessByName : Obligations.RegisterAccessByName := by
  intro s rest hb
  refine ⟨fun r hl => ?_, fun r v hl hr => ?_, fun hl => ?_⟩ <;> rw [step_of_not_busy hb hl]
  · cases r <;> rfl
  · rw [hostAct, writeReg, if_neg hr]
    cases r <;> rfl
  · rfl

/-! ### REGMAP -/

/-- An injective REGMAP gives different registers different addresses. -/
theorem regMap_addr_inj {rm : RegMap} (h : rm.injective) {q r : RegName} : rm.addr q = rm.addr r ↔ q = r := by
  have nodup : ([RegName.cmd, .status, .i, .olen, .w, .h, .len].map rm.addr).Nodup := h
  have mem : ∀ q : RegName, q ∈ [RegName.cmd, .status, .i, .olen, .w, .h, .len] := by intro q; cases q <;> decide
  exact ⟨fun e => List.inj_on_of_nodup_map nodup (mem q) (mem r) e, fun e => e ▸ rfl⟩

/-- Under an injective REGMAP the register at a register's address is that register. -/
theorem regAt_addr {rm : RegMap} (h : rm.injective) (r : RegName) : regAt rm (rm.addr r) = some r := by
  have : (fun q => rm.addr q == rm.addr r) = fun q => q == r := by
    funext q
    rw [Bool.eq_iff_iff, beq_iff_eq, beq_iff_eq, regMap_addr_inj h]
  rw [regAt, this]
  cases r <;> rfl

/-- Settles O34: an injective REGMAP finds the register named by its address, and a small value is a word of its own. -/
theorem busAccessIsAccessByName : Obligations.BusAccessIsAccessByName := by
  intro s r v h
  refine ⟨?_, ?_, fun hv => ?_⟩
  · simp only [hostAct, regAt_addr h]
  · simp only [hostAct, regAt_addr h]
  · have : v < 256 := by omega
    simp [hostAct, writeReg, hostPort, this]

/-- Settles O35: R28's values stand in `State.reset`, and a block in IDLE with no line left waits. -/
theorem resetValues : Obligations.ResetValues :=
  ⟨rfl, rfl, rfl, rfl, rfl, rfl, rfl, rfl, by rw [step_of_nil ⟨rfl, rfl⟩, coreStep_of_idle rfl]⟩

end Sys2Proof.Machine
end

section
/-! PROOFS. M, PR, PG and PB are the core's own (10_state R13): who changes them, and that no step reads a value left in
them. -/

namespace Sys2Proof.Machine

/-! ### The port word -/

theorem exec_portWord {i : Instr} {s t : State} (h : exec i s = .next t) : t.portWord = s.portWord := by
  rcases exec_cases h with ⟨_, _, _, rfl⟩ | ⟨_, _, _, rfl⟩ | ⟨_, _, rfl⟩ | ⟨_, _, _, rfl⟩ | ⟨_, _, _, rfl⟩ |
    ⟨_, _, _, rfl⟩ | ⟨_, _, _, rfl⟩ | ⟨_, _, rfl⟩ | ⟨_, _, _, _, rfl⟩
  · unfold encStart
    split <;> rfl
  all_goals rfl

/-- The core's transition keeps the script and the port word: neither is its own. -/
theorem coreStep_queue {s t : State} (h : coreStep s = .next t) : t.pending = s.pending ∧ t.portWord = s.portWord := by
  rcases coreStep_cases h with ⟨_, rfl⟩ | ⟨_, _, rfl⟩ | ⟨_, _, rfl⟩ | ⟨_, _, rfl⟩ <;> exact ⟨rfl, rfl⟩

/-- No step puts a word on a port, and the one that stood there has been taken (log 21). -/
theorem step_portWord {s t : State} (h : step s = .next t) : t.portWord = none := by
  obtain ⟨u, hu, hc⟩ := step_next_cases h
  have hp : u.portWord = none := by rw [hu]
  rw [← hp]
  rcases hc with ⟨i, he⟩ | hc | rfl | ⟨v, rfl⟩ | ⟨_, _, ht⟩
  · exact exec_portWord he
  · exact (coreStep_queue hc).2
  · rfl
  · rfl
  · rw [ht]

/-! ### Who changes the working registers -/

/-- The four working registers are as before. -/
def SameWorking (s t : State) : Prop := t.m = s.m ∧ t.pr = s.pr ∧ t.pg = s.pg ∧ t.pb = s.pb

theorem coreStep_working {s t : State} (h : coreStep s = .next t) (hne : ¬ SameWorking s t) : busy s = true := by
  rcases coreStep_cases h with ⟨_, rfl⟩ | ⟨e, _⟩ | ⟨e, _⟩ | ⟨e, _⟩
  · exact absurd ⟨rfl, rfl, rfl, rfl⟩ hne
  · exact (busy_iff s).2 (.inl e)
  · exact (busy_iff s).2 (.inr e)
  · exact (busy_iff s).2 (.inr e)

/-- With no word on a port and no reset, only the pixel step of a busy block changes the working registers. -/
theorem step_working {s t : State} (hp : s.portWord = none) (hr : s.pending.head? ≠ some .reset)
    (h : step s = .next t) (hne : ¬ SameWorking s t) :
    busy s = true ∧ coreStep { s with pending := t.pending } = .next t := by
  have core : ∀ rest, coreStep { s with pending := rest } = .next t →
      busy s = true ∧ coreStep { s with pending := t.pending } = .next t := fun rest hc =>
    ⟨coreStep_working (s := { s with pending := rest }) hc hne, by rw [(coreStep_queue hc).1]; exact hc⟩
  rcases step_cases s with ⟨pw, hpw, _⟩ | ⟨_, he⟩ | ⟨mv, rest, ⟨_, hl⟩, _, he⟩
  · simp [hp] at hpw
  · exact core s.pending (he ▸ h)
  · rw [he] at h
    by_cases hm : mv = .pass
    · subst hm
      exact core rest h
    · exact absurd (hostAct_working (by rintro rfl; simp [hl] at hr) hm h) hne

/-! ### Nothing reads a value left in them -/

/-- The state with the working registers blanked out. -/
def eraseWorking (s : State) : State := { s with m := 0#8, pr := 0#8, pg := 0#8, pb := 0#8 }

/-- An outcome, its next state seen without the working registers. -/
def visible : Host.Outcome State Fault Refusal → Host.Outcome State Fault Refusal
  | .next t => .next (eraseWorking t)
  | .fault r => .fault r
  | .refused r => .refused r

/-- An operation does as much on a state with blank working registers, as far as can be seen without them. -/
def IgnoresWorking (op : State → Host.Outcome State Fault Refusal) : Prop :=
  ∀ s, visible (op (eraseWorking s)) = visible (op s)

theorem encStart_eraseWorking (s : State) : eraseWorking (encStart (eraseWorking s)) = eraseWorking (encStart s) := by
  unfold encStart
  show eraseWorking (if admits s.w s.h s.len then _ else _) = _
  split <;> rfl

theorem ignoresWorking_exec (i : Instr) : IgnoresWorking (exec i) := by
  intro s
  have hb : busy (eraseWorking s) = busy s := rfl
  cases i with
  | cmdEncode =>
    have hf : encodeFits (eraseWorking s) = encodeFits s := rfl
    simp only [exec, execEncode, hb, hf]
    split <;> [rfl; split]
    · exact congrArg Host.Outcome.next (encStart_eraseWorking s)
    · rfl
  | cmdDecode =>
    have hf : decodeFits (eraseWorking s) = decodeFits s := rfl
    simp only [exec, execDecode, hb, hf]
    split <;> [rfl; split] <;> rfl
  | cmdNeither => simp only [exec, execIllegalNeither, hb]; split <;> rfl
  | cmdBoth => simp only [exec, execIllegalBoth, hb]; split <;> rfl
  | dataPayloadByte _ _ => rfl
  | dataChannelR _ _ => rfl
  | dataChannelG _ _ => rfl
  | dataChannelB _ _ => rfl
  | dataReconstructed _ => rfl
  | statusWord _ _ _ => rfl

/-- A pixel step writes the working registers before it reads them: M, PR, PG and PB of `encNext` and `decNext` come from
the spaces (10_state R13). -/
theorem ignoresWorking_coreStep : IgnoresWorking coreStep := by
  intro s
  cases e : s.seq with
  | idle => rw [coreStep_of_idle e, coreStep_of_idle (s := eraseWorking s) e]; rfl
  | halt => rw [coreStep_of_halt e, coreStep_of_halt (s := eraseWorking s) e]; rfl
  | enc =>
    rw [coreStep_of_enc e, coreStep_of_enc (s := eraseWorking s) e]
    by_cases hi : s.i < pixelCount s.w s.h
    · rw [encPix_of_lt hi, encPix_of_lt (s := eraseWorking s) hi]; rfl
    · rw [encPix_of_ge hi, encPix_of_ge (s := eraseWorking s) hi]
  | dec =>
    rw [coreStep_of_dec e, coreStep_of_dec (s := eraseWorking s) e]
    rcases Nat.lt_trichotomy s.i (pixelCount s.w s.h) with hi | hi | hi
    · rw [decPix_of_lt hi, decPix_of_lt (s := eraseWorking s) hi]; rfl
    · rw [decPix_of_eq hi, decPix_of_eq (s := eraseWorking s) hi]; rfl
    · rw [decPix_of_gt hi, decPix_of_gt (s := eraseWorking s) hi]

theorem ignoresWorking_runWord (pw : PortWord) : IgnoresWorking (runWord pw) := by
  intro s
  cases hd : decode pw with
  | ok i => rw [runWord_of_decode hd, runWord_of_decode hd, ignoresWorking_exec]
  | error r => rw [runWord_of_reject hd, runWord_of_reject hd]

theorem ignoresWorking_readReg (r : RegName) : IgnoresWorking (readReg r) := by
  intro s
  cases r <;> rfl

theorem ignoresWorking_writeReg (r : RegName) (v : Nat) : IgnoresWorking (writeReg r v) := by
  intro s
  unfold writeReg
  split
  · split
    · exact ignoresWorking_runWord _ s
    · rfl
  · cases r <;> rfl

theorem ignoresWorking_hostAct (mv : HostMove) : IgnoresWorking (hostAct mv) := by
  intro s
  have hin : ∀ x y, inGrid (eraseWorking s) x y = inGrid s x y := fun _ _ => rfl
  have hlen : (eraseWorking s).len = s.len := rfl
  have hcfg : (eraseWorking s).cfg = s.cfg := rfl
  cases mv with
  | word pw => simp only [hostAct]; split <;> [exact ignoresWorking_runWord pw s; rfl]
  | readReg r => exact ignoresWorking_readReg r s
  | writeReg r v => exact ignoresWorking_writeReg r v s
  | busRead a => simp only [hostAct, hcfg]; split <;> [exact ignoresWorking_readReg _ s; rfl]
  | busWrite a v => simp only [hostAct, hcfg]; split <;> [exact ignoresWorking_writeReg _ v s; rfl]
  | loadGrid w h ps => simp only [hostAct, loadGrid]; split <;> rfl
  | setPixel x y p => simp only [hostAct, hostSetPixel, hin]; split <;> rfl
  | getPixel x y => simp only [hostAct, hostGetPixel, hin]; split <;> rfl
  | setMsg k b => simp only [hostAct, hostSetMsg, hlen]; split <;> rfl
  | getMsg k => simp only [hostAct, hostGetMsg, hlen]; split <;> rfl
  | loadMsg bs => rfl
  | readOut => rfl
  | reset => rfl
  | pass => exact ignoresWorking_coreStep s

/-- Who moves next depends on the port word, the script, STATE and REGMAP, and each of the movers ignores the working
registers. -/
theorem ignoresWorking_step : IgnoresWorking step := by
  intro s
  cases hp : s.portWord with
  | some pw =>
    rw [step_of_portWord hp, step_of_portWord (s := eraseWorking s) hp]
    exact ignoresWorking_runWord pw { s with portWord := none }
  | none =>
    cases hl : s.pending with
    | nil =>
      rw [step_of_nil ⟨hp, hl⟩, step_of_nil (s := eraseWorking s) ⟨hp, hl⟩]
      exact ignoresWorking_coreStep s
    | cons mv rest =>
      cases hw : busy s && waitsForDone s.cfg mv with
      | true =>
        obtain ⟨hb, hd⟩ := Bool.and_eq_true_iff.1 hw
        rw [step_of_waiting ⟨hp, hl⟩ hb hd, step_of_waiting (s := eraseWorking s) ⟨hp, hl⟩ hb hd]
        exact ignoresWorking_coreStep s
      | false =>
        rw [step_of_move ⟨hp, hl⟩ hw, step_of_move (s := eraseWorking s) ⟨hp, hl⟩ hw]
        exact ignoresWorking_hostAct mv { s with pending := rest }

/-- States that look alike without the working registers step to states that do. -/
theorem step_of_eraseWorking_eq {s s' t : State} (e : eraseWorking s' = eraseWorking s) (h : step s = .next t) :
    ∃ t', step s' = .next t' ∧ eraseWorking t' = eraseWorking t := by
  have hv : visible (step s') = .next (eraseWorking t) := by
    rw [← ignoresWorking_step, e, ignoresWorking_step, h]
    rfl
  cases hs : step s' with
  | next t' => exact ⟨t', rfl, by simpa [hs, visible] using hv⟩
  | fault r => simp [hs, visible] at hv
  | refused r => simp [hs, visible] at hv

theorem eq_of_eraseWorking_eq {t t' : State} (e : eraseWorking t' = eraseWorking t) :
    t' = { t with m := t'.m, pr := t'.pr, pg := t'.pg, pb := t'.pb } :=
  congrArg (fun u : State => { u with m := t'.m, pr := t'.pr, pg := t'.pg, pb := t'.pb }) e

/-- Settles O60: the core alone writes the working registers, the port word is only ever taken, and a step is the same,
working registers aside, on a state that differs in them. -/
theorem workingRegistersAreTheCores : Obligations.WorkingRegistersAreTheCores := by
  refine ⟨rfl, fun s t h => step_portWord h, fun s t hp hr h hne => step_working hp hr h hne,
    fun s t m pr pg pb h => ?_⟩
  obtain ⟨t', ht', e⟩ := step_of_eraseWorking_eq (s := s) (s' := { s with m := m, pr := pr, pg := pg, pb := pb }) rfl h
  exact ⟨t'.m, t'.pr, t'.pg, t'.pb, by rw [ht', ← eq_of_eraseWorking_eq e]⟩

end Sys2Proof.Machine
end

section
/-! PROOFS. The three spaces (20_memory): a write in canonical form (R53), the raster index (R43), the range of the
core's accesses (R50), and an ENCODE run twice (R53). -/

namespace Sys2Proof.Machine

/-! ### A write in canonical form -/

/-- A write keeps the canonical form, reads back, and keeps every other key, whatever a space holds. -/
theorem Memory.write_spec {α : Type} [DecidableEq α] {d : α} {m : Memory α} (h : Memory.wf d m) (a : Nat) (v : α) :
    Memory.wf d (Memory.write d m a v) ∧ Memory.read d (Memory.write d m a v) a = v ∧
      ∀ a', a' ≠ a → Memory.read d (Memory.write d m a v) a' = Memory.read d m a' :=
  ⟨Memory.write_wf d a v h, Memory.read_write_self d m a v, fun _ hne => Memory.read_write_of_ne d m v hne⟩

/-- Settles O28: the laws of a write, for each of the two spaces. -/
theorem canonicalWriteReadsBack : Obligations.CanonicalWriteReadsBack :=
  ⟨fun _ _ a v h => Memory.write_spec h a v, fun _ _ a v h => Memory.write_spec h a v⟩

/-! ### The raster index -/

theorem scanIndex_scan (w i : Nat) : scanIndex w (scanX w i) (scanY w i) = i :=
  Nat.div_add_mod' i w

theorem scanX_scanIndex {w x : Nat} (y : Nat) (hx : x < w) : scanX w (scanIndex w x y) = x := by
  rw [scanX, scanIndex, Nat.mul_add_mod', Nat.mod_eq_of_lt hx]

theorem scanY_scanIndex {w x : Nat} (y : Nat) (hx : x < w) : scanY w (scanIndex w x y) = y := by
  rw [scanY, scanIndex, Nat.mul_comm, Nat.mul_add_div (by omega), Nat.div_eq_of_lt hx, Nat.add_zero]

/-- A cell's index falls before the end of its row, and that row ends no later than the grid does. -/
theorem scanIndex_lt {w h x y : Nat} (hx : x < w) (hy : y < h) : scanIndex w x y < w * h :=
  calc y * w + x < y * w + w := Nat.add_lt_add_left hx _
    _ = (y + 1) * w := (Nat.succ_mul y w).symm
    _ ≤ h * w := Nat.mul_le_mul_right w hy
    _ = w * h := Nat.mul_comm h w

/-- Settles O30: each composite of the two maps is the identity, and each map stays in range. -/
theorem rasterIndexBijection : Obligations.RasterIndexBijection := by
  refine ⟨fun w h i hi => ?_, fun w h x y hx hy => ⟨scanIndex_lt hx hy, scanX_scanIndex y hx, scanY_scanIndex y hx⟩⟩
  obtain ⟨hx, hy⟩ := scan_in_range hi
  exact ⟨hx, hy, scanIndex_scan w i⟩

/-! ### The core's accesses stay in range -/

/-- An access is inside the grid or the message that stands in `s` (20_memory R44, R50). -/
def AccessInRange (s : State) : Access → Prop
  | .msgRead k _ => k < s.len
  | .gridRead x y _ => x < s.w ∧ y < s.h
  | .gridWrite x y _ => x < s.w ∧ y < s.h
  | .outAppend _ => True

/-- From `s` to `t` the trace grows by accesses in range alone. -/
def AddsInRange (s t : State) : Prop :=
  ∃ added, t.trace = s.trace ++ added ∧ ∀ a ∈ added, AccessInRange s a

theorem addsInRange_of_trace_eq {s t : State} (h : t.trace = s.trace) : AddsInRange s t :=
  ⟨[], by simp [h], by simp⟩

/-- ENC_PIX reads a message byte only below LEN, and its one cell is the visited one. -/
theorem encAccesses_inRange {s : State} (hi : s.i < pixelCount s.w s.h) : ∀ a ∈ encAccesses s, AccessInRange s a := by
  have hcell : scanX s.w s.i < s.w ∧ scanY s.w s.i < s.h := scan_in_range hi
  unfold encAccesses
  split
  · next hlt => simpa [AccessInRange] using ⟨hlt, hcell⟩
  · simpa [AccessInRange] using hcell

/-- DEC_PIX reads the visited cell alone. -/
theorem addsInRange_decNext {s : State} (hi : s.i < pixelCount s.w s.h) : AddsInRange s (decNext s) := by
  refine ⟨_, decNext_trace s, ?_⟩
  have hcell : scanX s.w s.i < s.w ∧ scanY s.w s.i < s.h := scan_in_range hi
  split <;> simpa [AccessInRange] using hcell

theorem addsInRange_coreStep {s t : State} (h : coreStep s = .next t) : AddsInRange s t := by
  rcases coreStep_cases h with ⟨_, rfl⟩ | ⟨_, hi, rfl⟩ | ⟨_, _, rfl⟩ | ⟨_, hi, rfl⟩
  · exact addsInRange_of_trace_eq rfl
  · exact ⟨_, encNext_trace s, encAccesses_inRange hi⟩
  · exact addsInRange_of_trace_eq rfl
  · exact addsInRange_decNext hi

/-- An instruction by itself issues no access. -/
theorem exec_trace {i : Instr} {s t : State} (h : exec i s = .next t) : t.trace = s.trace := by
  rcases exec_cases h with ⟨_, _, _, rfl⟩ | ⟨_, _, _, rfl⟩ | ⟨_, _, rfl⟩ | ⟨_, _, _, rfl⟩ | ⟨_, _, _, rfl⟩ |
    ⟨_, _, _, rfl⟩ | ⟨_, _, _, rfl⟩ | ⟨_, _, rfl⟩ | ⟨_, _, _, _, rfl⟩
  · unfold encStart
    split <;> rfl
  all_goals rfl

/-- Only the core's transition adds to the trace, and it adds accesses in range, from any state. -/
theorem addsInRange_step {s t : State} (h : step s = .next t) : AddsInRange s t := by
  obtain ⟨u, hu, hc⟩ := step_next_cases h
  have taken : AddsInRange u t → AddsInRange s t := by rw [hu]; exact id
  apply taken
  rcases hc with ⟨i, he⟩ | hc | rfl | ⟨v, rfl⟩ | ⟨_, _, ht⟩
  · exact addsInRange_of_trace_eq (exec_trace he)
  · exact addsInRange_coreStep hc
  · exact addsInRange_of_trace_eq rfl
  · exact addsInRange_of_trace_eq rfl
  · exact addsInRange_of_trace_eq (by rw [ht])

/-! ### No fault -/

theorem runWord_ne_fault (pw : PortWord) (s : State) (r : Fault) : runWord pw s ≠ .fault r := by
  cases hd : decode pw with
  | ok i =>
    rw [runWord_of_decode hd]
    exact exec_ne_fault i s r
  | error e =>
    rw [runWord_of_reject hd]
    simp

/-- The bounds on I in ENC and DEC are those that keep the core from its fault (20_memory R50). -/
theorem Inv.coreStep_ne_fault {s : State} (h : Inv s) (r : Fault) : Machine.coreStep s ≠ .fault r := by
  intro hf
  rcases coreStep_fault hf with ⟨e, hge⟩ | ⟨e, hgt⟩
  · obtain ⟨_, hcap, hi⟩ := h.enc e
    rw [pixelCount_eq] at hge
    omega
  · obtain ⟨_, _, hi⟩ := h.dec e
    exact absurd hi (Nat.not_le.2 hgt)

theorem Inv.step_ne_fault {s : State} (h : Inv s) (r : Fault) : step s ≠ .fault r := by
  intro hf
  rcases step_cases s with ⟨pw, _, he⟩ | ⟨_, he⟩ | ⟨mv, rest, hl, _, he⟩ <;> rw [he] at hf
  · exact runWord_ne_fault pw _ r hf
  · exact h.coreStep_ne_fault r hf
  · exact (h.taken (taken_pending hl.1 rest)).coreStep_ne_fault r (hostAct_fault hf).2

/-- Settles O27: the invariant keeps the scan index from the fault; that the accesses added are in range needs the
enabling facts of the pixel steps alone. -/
theorem coreStaysInRange : Obligations.CoreStaysInRange :=
  fun _ h => ⟨h.step_ne_fault, fun _ hst => addsInRange_step hst⟩

/-! ### Encoding twice -/

theorem embedChannel_idem (c e : Byte) : embedChannel (embedChannel c e) e = embedChannel c e := by
  refine BitVec.eq_of_getLsbD_eq fun j _ => ?_
  simp only [embedChannel, BitVec.getLsbD_or, BitVec.getLsbD_and]
  cases e.getLsbD j <;> simp

/-- EMBED of a byte over itself changes nothing. -/
theorem embed_idem (m : Byte) (p : Pixel) : embed m (embed m p) = embed m p := by
  simp only [embed, embedChannel_idem]

theorem encodedPixel_idem (msg : List Byte) (k : Nat) (p : Pixel) :
    encodedPixel msg k (encodedPixel msg k p) = encodedPixel msg k p := by
  unfold encodedPixel
  split
  · exact embed_idem _ p
  · split
    · exact embed_idem _ p
    · rfl

theorem encodeFrom_idem (msg : List Byte) (k : Nat) (ps : List Pixel) :
    encodeFrom msg k (encodeFrom msg k ps) = encodeFrom msg k ps := by
  induction ps generalizing k with
  | nil => rfl
  | cons p ps ih => simp only [encodeFrom, encodedPixel_idem, ih]

/-- Settles O54: an admitted encode is idempotent pixel by pixel, and a refused one leaves the grid; which of the two
happens does not depend on the grid. -/
theorem encodeIsIdempotent : Obligations.EncodeIsIdempotent := by
  intro w h g msg
  unfold encodeFn
  split
  · rw [encodeFrom_idem]
  · rfl

end Sys2Proof.Machine
end

section
/-! PROOFS. Decoder and encoder are inverse (30_encoding R70 to R72, R75 to R77, 10_state R20): the fields of each format
first, then the words of each port. -/

namespace Sys2Proof.Machine

/-! ### The fields of a word -/

theorem payloadBits_stored (stored : BitVec 3) (dropped : BitVec 5) :
    (payloadBits stored dropped).extractLsb' 5 3 = stored :=
  BitVec.extractLsb'_append_eq_left

theorem payloadBits_dropped (stored : BitVec 3) (dropped : BitVec 5) :
    (payloadBits stored dropped).extractLsb' 0 5 = dropped :=
  BitVec.extractLsb'_append_eq_right

theorem channelBits_cover (cover : BitVec 7) (carrier : BitVec 1) :
    (channelBits cover carrier).extractLsb' 1 7 = cover :=
  BitVec.extractLsb'_append_eq_left

theorem channelBits_carrier (cover : BitVec 7) (carrier : BitVec 1) :
    (channelBits cover carrier).extractLsb' 0 1 = carrier :=
  BitVec.extractLsb'_append_eq_right

/-- The word of a status stands in bits 3:0. -/
theorem statusBits_high (err : BitVec 2) (done busy : BitVec 1) :
    (statusBits err done busy).extractLsb' 4 4 = 0#4 :=
  BitVec.extractLsb'_append_eq_left

theorem statusBits_err (err : BitVec 2) (done busy : BitVec 1) :
    (statusBits err done busy).extractLsb' 2 2 = err := by
  rw [statusBits, BitVec.extractLsb'_append_eq_of_add_le (by decide), BitVec.extractLsb'_append_eq_left]

theorem statusBits_done (err : BitVec 2) (done busy : BitVec 1) :
    (statusBits err done busy).extractLsb' 1 1 = done := by
  rw [statusBits, BitVec.extractLsb'_append_eq_of_add_le (by decide), BitVec.extractLsb'_append_eq_of_add_le (by decide),
    BitVec.extractLsb'_append_eq_left]

theorem statusBits_busy (err : BitVec 2) (done busy : BitVec 1) :
    (statusBits err done busy).extractLsb' 0 1 = busy := by
  rw [statusBits, BitVec.extractLsb'_append_eq_of_add_le (by decide), BitVec.extractLsb'_append_eq_of_add_le (by decide),
    BitVec.extractLsb'_append_eq_right]

/-- A word with nothing above bit 3 is its status fields put together (10_state R20). -/
theorem statusBits_extract {b : Byte} (h : b.extractLsb' 4 4 = 0#4) :
    statusBits (b.extractLsb' 2 2) (b.extractLsb' 1 1) (b.extractLsb' 0 1) = b := by
  rw [statusBits, ← h, BitVec.extractLsb'_append_extractLsb'_eq_extractLsb' (by rfl),
    BitVec.extractLsb'_append_extractLsb'_eq_extractLsb' (by rfl),
    BitVec.extractLsb'_append_extractLsb'_eq_extractLsb' (by rfl)]
  simp

/-- A byte with nothing in its dropped field is its stored field and zeros (30_encoding R72). -/
theorem payloadBits_extract_of_low_zero {b : Byte} (h : b.extractLsb' 0 5 = 0#5) :
    payloadBits (b.extractLsb' 5 3) 0#5 = b := by
  rw [← h, payloadBits_extract]

/-! ### Command words -/

/-- The bytes with no bit above bit 1 are the four command words (30_encoding R75). -/
theorem cmdBits_high_eq_zero_iff (b : Byte) :
    b.extractLsb' 2 6 = 0#6 ↔ b = 0b01#8 ∨ b = 0b10#8 ∨ b = 0b00#8 ∨ b = 0b11#8 := by
  simp only [← BitVec.toNat_inj, BitVec.extractLsb'_toNat, BitVec.toNat_ofNat, Nat.shiftRight_eq_div_pow]
  omega

theorem decode_cmd_of_high_ne_zero {b : Byte} (h : b.extractLsb' 2 6 ≠ 0#6) :
    decode { port := .cmd, bits := b } = .error .cmdTooWide :=
  if_neg h

/-- Settles O4: the decoder reads bits 1 and 0 of the four words with nothing above them, and rejects every other byte. -/
theorem commandWordMap : Obligations.CommandWordMap := by
  intro b
  by_cases h : b.extractLsb' 2 6 = 0#6
  · rcases (cmdBits_high_eq_zero_iff b).1 h with rfl | rfl | rfl | rfl <;> rfl
  · have hne := mt (cmdBits_high_eq_zero_iff b).2 h
    simp only [not_or] at hne
    obtain ⟨h1, h2, h0, h3⟩ := hne
    rw [decode_cmd_of_high_ne_zero h, if_neg h1, if_neg h2, if_neg h0, if_neg h3]

/-! ### What a port accepts -/

/-- An accepted command word is one of the four. -/
theorem decode_cmd_eq_ok {b : Byte} {i : Instr} (h : decode { port := .cmd, bits := b } = .ok i) :
    WellFormed i = true ∧ encode i = { port := .cmd, bits := b } := by
  by_cases hhigh : b.extractLsb' 2 6 = 0#6
  · rcases (cmdBits_high_eq_zero_iff b).1 hhigh with rfl | rfl | rfl | rfl <;> (cases h; exact ⟨rfl, rfl⟩)
  · rw [decode_cmd_of_high_ne_zero hhigh] at h
    cases h

/-- An accepted status word is one of R20's legal values, and its fields make up the whole word. -/
theorem decode_status_eq_ok {b : Byte} {i : Instr} (h : decode { port := .status, bits := b } = .ok i) :
    WellFormed i = true ∧ encode i = { port := .status, bits := b } := by
  simp only [decode, decodeStatus] at h
  split at h <;> [skip; cases h]
  next hhigh =>
    split at h <;> cases h
    next hwf => exact ⟨hwf, by rw [encode, statusBits_extract hhigh]⟩

theorem decode_out_of_low_zero {b : Byte} (h : b.extractLsb' 0 5 = 0#5) :
    decode { port := .out, bits := b } = .ok (.dataReconstructed (b.extractLsb' 5 3)) :=
  if_pos h

theorem decode_out_of_low_ne_zero {b : Byte} (h : b.extractLsb' 0 5 ≠ 0#5) :
    decode { port := .out, bits := b } = .error .notReconstructed :=
  if_neg h

/-- An accepted byte of the output port is `ABC00000` (30_encoding R77). -/
theorem decode_out_eq_ok {b : Byte} {i : Instr} (h : decode { port := .out, bits := b } = .ok i) :
    WellFormed i = true ∧ encode i = { port := .out, bits := b } := by
  by_cases hlow : b.extractLsb' 0 5 = 0#5
  · rw [decode_out_of_low_zero hlow] at h
    cases h
    exact ⟨rfl, by rw [encode, payloadBits_extract_of_low_zero hlow]⟩
  · rw [decode_out_of_low_ne_zero hlow] at h
    cases h

/-! ### Both directions -/

/-- Settles O2: each constructor's fields are read back from the places the encoder put them at; of the status words only
the well-formed ones pass the decoder's test. -/
theorem decodeOfEncode : Obligations.DecodeOfEncode := by
  intro i hwf
  cases i with
  | cmdEncode => rfl
  | cmdDecode => rfl
  | cmdNeither => rfl
  | cmdBoth => rfl
  | dataPayloadByte stored dropped => simp only [encode, decode, payloadBits_stored, payloadBits_dropped]
  | dataChannelR cover carrier => simp only [encode, decode, channelBits_cover, channelBits_carrier]
  | dataChannelG cover carrier => simp only [encode, decode, channelBits_cover, channelBits_carrier]
  | dataChannelB cover carrier => simp only [encode, decode, channelBits_cover, channelBits_carrier]
  | dataReconstructed stored =>
    rw [encode, decode_out_of_low_zero (payloadBits_dropped stored 0#5), payloadBits_stored]
  | statusWord err done busy =>
    simp only [encode, decode, decodeStatus, statusBits_high, statusBits_err, statusBits_done, statusBits_busy, hwf,
      if_true]

/-- Settles O3: port by port. A command word is one of four; on the data ports the fields of a byte make up the byte. -/
theorem encodeOfDecode : Obligations.EncodeOfDecode := by
  rintro ⟨port, b⟩ i h
  cases port with
  | cmd => exact decode_cmd_eq_ok h
  | status => exact decode_status_eq_ok h
  | out => exact decode_out_eq_ok h
  | msg => cases h; exact ⟨rfl, by rw [encode, payloadBits_extract]⟩
  | laneR => cases h; exact ⟨rfl, by rw [encode, channelBits_extract]⟩
  | laneG => cases h; exact ⟨rfl, by rw [encode, channelBits_extract]⟩
  | laneB => cases h; exact ⟨rfl, by rw [encode, channelBits_extract]⟩

/-- Settles O1: on ten closed words the decoder computes. -/
theorem sampleWordsDecode : Obligations.SampleWordsDecode :=
  ⟨rfl, rfl, rfl, rfl, rfl, rfl, rfl, rfl, rfl, rfl⟩

end Sys2Proof.Machine
end

section
/-! PROOFS. Where the bytes go (30_encoding R70 to R72, R77, R80): a data word's into its working register, a script
line's into its space, and of a grid only the carrier bits into a decode. -/

namespace Sys2Proof.Machine

/-! ### Data words -/

/-- Settles O13: M takes the fields put together, which for a word at the message port are its byte. -/
theorem payloadByteReachesM : Obligations.PayloadByteReachesM :=
  ⟨fun _ _ _ => rfl, fun b s => decode_msg_exec b s⟩

/-- Settles O14: each lane's register takes cover and carrier put together, which are the byte at that lane. -/
theorem channelBytesReachTheirRegisters : Obligations.ChannelBytesReachTheirRegisters :=
  ⟨fun _ _ _ => ⟨rfl, rfl, rfl⟩,
    fun b s => ⟨decode_laneR_exec b s, decode_laneG_exec b s, decode_laneB_exec b s⟩⟩

/-- "Bits 4:0" as a mask and as a field (30_encoding R72, R77). -/
theorem and_dropMask_eq_zero_iff (b : Byte) : b &&& 0x1F#8 = 0#8 ↔ b.extractLsb' 0 5 = 0#5 := by
  simp only [← BitVec.toNat_inj, BitVec.toNat_and, BitVec.extractLsb'_toNat, BitVec.toNat_ofNat, Nat.shiftRight_zero]
  rw [show 0x1F % 2 ^ 8 = 2 ^ 5 - 1 from rfl, Nat.and_two_pow_sub_one_eq_mod]

theorem decode_out_exec {b : Byte} (h : b.extractLsb' 0 5 = 0#5) (s : State) :
    ∃ i, decode { port := .out, bits := b } = .ok i ∧ exec i s = .next (loadM b s) :=
  ⟨_, decode_out_of_low_zero h, by simp only [exec, execReconstructed, payloadBits_extract_of_low_zero h]⟩

/-- Settles O15: with bits 4:0 zero the stored field and zeros are the byte; otherwise the decoder rejects it. -/
theorem reconstructedByteReachesM : Obligations.ReconstructedByteReachesM :=
  ⟨fun _ _ => rfl, fun b s h => decode_out_exec ((and_dropMask_eq_zero_iff b).1 h) s,
    fun b h => decode_out_of_low_ne_zero (mt (and_dropMask_eq_zero_iff b).2 h)⟩

/-! ### Script lines -/

/-- A grid filled from scan index 0 reads as its pixels in raster order. -/
theorem gridList_of_fillGrid {t : State} {ps : List Pixel} (hlen : ps.length = t.w * t.h)
    (hg : t.grid = fillGrid t.w 0 ps []) : gridList t = ps := by
  refine List.ext_getElem (by simp [gridList, pixelCount_eq, hlen]) fun k _ hk => ?_
  simp [gridList, pixelOfIndex, pixelAt, hg, read_fillGrid, hk]

/-- A message filled from index 0 reads as its bytes. -/
theorem msgList_of_fillMsg {t : State} {bs : List Byte} (hlen : t.len = bs.length) (hm : t.msg = fillMsg 0 bs []) :
    msgList t = bs := by
  refine List.ext_getElem (by simp [msgList, hlen]) fun k _ hk => ?_
  simp [msgList, msgByte, hm, read_fillMsg, hk]

/-- Settles O31: a block that is not busy runs the line, and what the line filled in reads back in order. -/
theorem scriptLinesLoadTheSpaces : Obligations.ScriptLinesLoadTheSpaces := by
  refine ⟨fun s w h ps rest hl hb => ?_, fun s bs rest hl hb => ?_⟩ <;> rw [step_of_not_busy hb hl]
  · simp only [hostAct, loadGrid, pixelCount_eq]
    exact ⟨fun hlen => ⟨_, if_pos hlen, rfl, gridList_of_fillGrid hlen rfl⟩, fun hlen => if_neg hlen⟩
  · exact ⟨_, rfl, rfl, msgList_of_fillMsg rfl rfl⟩

/-! ### What a decode reads -/

/-- EXTRACT reads bit 0 of each channel (40_bit_layout R92). -/
theorem extract_congr {p q : Pixel} (hr : p.r.getLsbD 0 = q.r.getLsbD 0) (hg : p.g.getLsbD 0 = q.g.getLsbD 0)
    (hb : p.b.getLsbD 0 = q.b.getLsbD 0) : extract p = extract q := by
  refine BitVec.eq_of_getLsbD_eq fun j _ => ?_
  rw [extract_getLsbD, extract_getLsbD, hr, hg, hb]

/-- DECODE_FN reads a grid through EXTRACT alone (42_decoder R142). -/
theorem decodeFn_congr {g g' : List Pixel} (h : g.map extract = g'.map extract) : decodeFn g = decodeFn g' := by
  simp only [decodeFn, h]

/-- Settles O58: pixels with the same carrier bits are extracted alike, so the two grids give one list of bytes. -/
theorem decodeReadsCarrierBitsOnly : Obligations.DecodeReadsCarrierBitsOnly := by
  intro g g' hlen hbits
  refine decodeFn_congr (List.ext_getElem (by simp [hlen]) fun k hk hk' => ?_)
  obtain ⟨hr, hg, hb⟩ := hbits k (by simpa using hk) (by simpa using hk')
  simpa using extract_congr hr hg hb

end Sys2Proof.Machine
end

section
/-! PROOFS. The laws of the Bit-Layout Convention (40_bit_layout R90 to R99). A pixel is its cover bits and its EXTRACT, so
EMBED is known by what it does to the two: it keeps the first and sets the second to the stored bits of the byte. -/

namespace Sys2Proof.Machine

/-! ### EXTRACT -/

/-- EXTRACT is `{ r[0], g[0], b[0], 0b00000 }` (40_bit_layout R92). -/
theorem extract_eq_cons (p : Pixel) :
    extract p = BitVec.cons (p.r.getLsbD 0) (BitVec.cons (p.g.getLsbD 0) (BitVec.cons (p.b.getLsbD 0) 0#5)) := by
  refine BitVec.eq_of_getLsbD_eq fun j _ => ?_
  rw [extract_getLsbD]
  simp only [BitVec.getLsbD_cons, BitVec.getLsbD_zero]

theorem extract_bit_seven (p : Pixel) : (extract p).getLsbD 7 = p.r.getLsbD 0 := extract_getLsbD p 7

theorem extract_bit_six (p : Pixel) : (extract p).getLsbD 6 = p.g.getLsbD 0 := extract_getLsbD p 6

theorem extract_bit_five (p : Pixel) : (extract p).getLsbD 5 = p.b.getLsbD 0 := extract_getLsbD p 5

/-- EXTRACT is zero when no channel carries a bit. -/
theorem extract_eq_zero_iff (p : Pixel) :
    extract p = 0x00#8 ↔ p.r.getLsbD 0 = false ∧ p.g.getLsbD 0 = false ∧ p.b.getLsbD 0 = false := by
  rw [extract_eq_cons]
  cases p.r.getLsbD 0 <;> cases p.g.getLsbD 0 <;> cases p.b.getLsbD 0 <;> decide

/-- A channel is even when its carrier bit is clear. -/
theorem toNat_mod_two_eq_zero_iff (c : Byte) : c.toNat % 2 = 0 ↔ c.getLsbD 0 = false := by
  simp [BitVec.getLsbD]

/-- Settles O19: EXTRACT puts the three carrier bits over five zeros, which is a closed byte for each of the eight
carriers; the sentinel is the one with no bit set. -/
theorem extractImage : Obligations.ExtractImage := by
  refine fun p => ⟨?_, ?_⟩
  · rw [extract_eq_cons]
    cases p.r.getLsbD 0 <;> cases p.g.getLsbD 0 <;> cases p.b.getLsbD 0 <;> rfl
  · rw [extract_eq_zero_iff, toNat_mod_two_eq_zero_iff, toNat_mod_two_eq_zero_iff, toNat_mod_two_eq_zero_iff]

/-! ### EXTRACT of EMBED -/

/-- EXTRACT after EMBED keeps the stored bits (40_bit_layout R94). -/
theorem extract_embed (m : Byte) (p : Pixel) : extract (embed m p) = m &&& keepMask := by
  refine BitVec.eq_of_getLsbD_eq fun j _ => ?_
  rw [extract_getLsbD, and_keepMask_getLsbD]
  simp only [embed, embedChannel_bit_zero]
  grind

/-- Masking with KEEP blanks the dropped field. -/
theorem and_keepMask_eq_payloadBits (m : Byte) : m &&& keepMask = payloadBits (m.extractLsb' 5 3) 0#5 := by
  refine BitVec.eq_of_getLsbD_eq fun j _ => ?_
  rw [and_keepMask_getLsbD, payloadBits, BitVec.getLsbD_append, BitVec.getLsbD_extractLsb', BitVec.getLsbD_zero]
  grind

theorem and_keepMask_eq_self_iff (m : Byte) : m &&& keepMask = m ↔ m &&& 0x1F#8 = 0#8 := by
  rw [and_keepMask_eq_payloadBits, and_dropMask_eq_zero_iff]
  refine ⟨fun h => ?_, payloadBits_extract_of_low_zero⟩
  rw [← h, payloadBits_dropped]

/-- A byte masks to the sentinel when it is below the lowest stored bit. -/
theorem and_keepMask_eq_zero_iff (m : Byte) : m &&& keepMask = 0x00#8 ↔ m.toNat ≤ 0x1F := by
  have hm : m.toNat < 256 := m.isLt
  rw [and_keepMask_eq_payloadBits, payloadBits, ← BitVec.toNat_inj, BitVec.toNat_append, BitVec.extractLsb'_toNat]
  simp only [BitVec.toNat_ofNat, Nat.shiftRight_eq_div_pow, Nat.shiftLeft_eq, Nat.zero_mod, Nat.or_zero]
  omega

/-- Settles O20: EXTRACT after EMBED is the masked byte, which is the byte when the dropped field is zero and the sentinel
when the stored field is. -/
theorem extractOfEmbed : Obligations.ExtractOfEmbed := by
  intro m p
  rw [extract_embed]
  exact ⟨rfl, and_keepMask_eq_self_iff m, and_keepMask_eq_zero_iff m⟩

/-! ### A pixel is its cover bits and its EXTRACT -/

/-- EXTRACT tells the carrier bits of a pixel apart (40_bit_layout R92). -/
theorem extract_eq_iff {p q : Pixel} :
    extract p = extract q ↔
      p.r.getLsbD 0 = q.r.getLsbD 0 ∧ p.g.getLsbD 0 = q.g.getLsbD 0 ∧ p.b.getLsbD 0 = q.b.getLsbD 0 := by
  refine ⟨fun h => ⟨?_, ?_, ?_⟩, fun ⟨hr, hg, hb⟩ => extract_congr hr hg hb⟩
  · rw [← extract_bit_seven, h, extract_bit_seven]
  · rw [← extract_bit_six, h, extract_bit_six]
  · rw [← extract_bit_five, h, extract_bit_five]

/-- A channel is its carrier bit and its cover bits. -/
theorem channel_eq {c d : Byte} (carrier : c.getLsbD 0 = d.getLsbD 0)
    (cover : ∀ k, 0 < k → c.getLsbD k = d.getLsbD k) : c = d := by
  refine BitVec.eq_of_getLsbD_eq fun j _ => ?_
  cases j with
  | zero => exact carrier
  | succ j => exact cover _ j.succ_pos

theorem SameCover.refl (p : Pixel) : SameCover p p := fun _ _ => ⟨rfl, rfl, rfl⟩

theorem SameCover.symm {p q : Pixel} (h : SameCover p q) : SameCover q p := fun k hk =>
  let ⟨hr, hg, hb⟩ := h k hk
  ⟨hr.symm, hg.symm, hb.symm⟩

theorem SameCover.trans {p q u : Pixel} (h : SameCover p q) (h' : SameCover q u) : SameCover p u := fun k hk =>
  let ⟨hr, hg, hb⟩ := h k hk
  let ⟨hr', hg', hb'⟩ := h' k hk
  ⟨hr.trans hr', hg.trans hg', hb.trans hb'⟩

/-- A pixel is its cover bits and the byte EXTRACT reads from it. -/
theorem pixel_eq_iff {p q : Pixel} : p = q ↔ SameCover p q ∧ extract p = extract q := by
  refine ⟨?_, fun ⟨cover, carriers⟩ => ?_⟩
  · rintro rfl
    exact ⟨.refl p, rfl⟩
  · obtain ⟨hr, hg, hb⟩ := extract_eq_iff.1 carriers
    cases p
    cases q
    rw [Pixel.mk.injEq]
    exact ⟨channel_eq hr fun k hk => (cover k hk).1, channel_eq hg fun k hk => (cover k hk).2.1,
      channel_eq hb fun k hk => (cover k hk).2.2⟩

/-- EMBED makes the one pixel with the cover bits it was given and the stored bits of the byte (40_bit_layout R90). -/
theorem embed_eq_iff {m : Byte} {p q : Pixel} : embed m p = q ↔ SameCover p q ∧ m &&& keepMask = extract q := by
  rw [pixel_eq_iff, extract_embed]
  exact and_congr_left fun _ => ⟨(sameCover_embed m p).symm.trans, (sameCover_embed m p).trans⟩

/-! ### The laws of EMBED -/

/-- EMBED tells two bytes apart by their stored bits alone (40_bit_layout R96 (b)). -/
theorem embed_eq_embed_iff {m n : Byte} {p : Pixel} : embed m p = embed n p ↔ m &&& keepMask = n &&& keepMask := by
  rw [embed_eq_iff, extract_embed]
  exact and_iff_right (sameCover_embed n p).symm

theorem and_keepMask_idem (m : Byte) : m &&& keepMask &&& keepMask = m &&& keepMask := by
  rw [BitVec.and_assoc, BitVec.and_self]

/-- EMBED reads only the stored bits (40_bit_layout R96 (a)). -/
theorem embed_and_keepMask (m : Byte) (p : Pixel) : embed (m &&& keepMask) p = embed m p :=
  embed_eq_embed_iff.2 (and_keepMask_idem m)

/-- An EMBED undoes the one before it (40_bit_layout R96 (c)). -/
theorem embed_embed (m n : Byte) (p : Pixel) : embed m (embed n p) = embed m p :=
  embed_eq_iff.2 ⟨(sameCover_embed n p).trans (sameCover_embed m p).symm, (extract_embed m p).symm⟩

/-- EMBED leaves a pixel that holds the stored bits already, and no other (40_bit_layout R96 (e)). -/
theorem embed_eq_self_iff {m : Byte} {p : Pixel} : embed m p = p ↔ extract p = m &&& keepMask := by
  rw [embed_eq_iff, eq_comm (b := extract p)]
  exact and_iff_right (.refl p)

/-- Bits 4:0 of what EXTRACT gives are zero (40_bit_layout R92). -/
theorem extract_and_keepMask (p : Pixel) : extract p &&& keepMask = extract p := by
  refine BitVec.eq_of_getLsbD_eq fun j _ => ?_
  rw [and_keepMask_getLsbD, extract_getLsbD]
  grind

/-- Settles O22: R96's laws in its order. -/
theorem embedLaws : Obligations.EmbedLaws := fun m n p =>
  ⟨(embed_and_keepMask m p).symm, embed_eq_embed_iff, embed_embed m n p,
    embed_eq_self_iff.2 (extract_and_keepMask p).symm, embed_eq_self_iff⟩

/-- Bytes that agree from bit 5 up have the same stored bits. -/
theorem and_keepMask_congr {m n : Byte} (h : ∀ k, 5 ≤ k → m.getLsbD k = n.getLsbD k) :
    m &&& keepMask = n &&& keepMask := by
  refine BitVec.eq_of_getLsbD_eq fun j _ => ?_
  rw [and_keepMask_getLsbD, and_keepMask_getLsbD]
  split
  · exact h j (by omega)
  · rfl

/-- Settles O18: each channel takes its bit and keeps its cover, bytes with the same stored bits embed alike, and EXTRACT
is read off bit by bit. -/
theorem bitLayoutConvention : Obligations.BitLayoutConvention := by
  refine ⟨fun m p => ?_, fun m n p h => embed_eq_embed_iff.2 (and_keepMask_congr h), fun p => ?_⟩
  · exact ⟨embedChannel_bit_zero .., embedChannel_bit_zero .., embedChannel_bit_zero .., sameCover_embed m p⟩
  · refine ⟨extract_bit_seven p, extract_bit_six p, extract_bit_five p, fun k hk => ?_⟩
    rw [extract_getLsbD, if_neg (by omega), if_neg (by omega), if_neg (by omega)]

/-! ### How far a channel moves -/

/-- Half of a channel is its cover bits, which EMBED keeps. -/
theorem embedChannel_toNat_div_two (c m : Byte) (k : Nat) :
    (embedChannel c (payloadBit m k)).toNat / 2 = c.toNat / 2 := by
  refine Nat.eq_of_testBit_eq fun j => ?_
  rw [← Nat.testBit_succ, ← Nat.testBit_succ]
  exact embedChannel_cover c m k j.succ_pos

/-- An embedded channel is even when the embedded bit is 0 (40_bit_layout R95). -/
theorem embedChannel_even_iff (c m : Byte) (k : Nat) :
    (embedChannel c (payloadBit m k)).toNat % 2 = 0 ↔ m.getLsbD k = false := by
  rw [toNat_mod_two_eq_zero_iff, embedChannel_bit_zero]

/-- R95's table for one channel: with the same half before and after, only the parities count. -/
theorem embedChannel_move (c m : Byte) (k : Nat) :
    ((embedChannel c (payloadBit m k)).toNat : Int) - c.toNat =
      if c.toNat % 2 = 0 then (if m.getLsbD k then 1 else 0) else (if m.getLsbD k then 0 else -1) := by
  have half := embedChannel_toNat_div_two c m k
  have parity := embedChannel_even_iff c m k
  cases he : m.getLsbD k with
  | false =>
    have even := parity.2 he
    simp only [Bool.false_eq_true, if_false]
    split <;> omega
  | true =>
    have odd := mt parity.1 (by rw [he]; decide)
    simp only [if_true]
    split <;> omega

/-- Settles O21: R95's table for a channel, at each of the three. -/
theorem embedChannelBound : Obligations.EmbedChannelBound := by
  intro m p c c' e hmem
  simp only [List.mem_cons, List.not_mem_nil, or_false, Prod.mk.injEq] at hmem
  rcases hmem with ⟨rfl, rfl, rfl⟩ | ⟨rfl, rfl, rfl⟩ | ⟨rfl, rfl, rfl⟩ <;>
    exact ⟨embedChannel_move .., embedChannel_even_iff ..⟩

/-! ### What of a message reaches the grid -/

/-- The message with its dropped bits masked off (40_bit_layout R99). -/
def maskMsg (msg : List Byte) : List Byte := msg.map (fun m => m &&& keepMask)

theorem maskMsg_length (msg : List Byte) : (maskMsg msg).length = msg.length := List.length_map ..

theorem maskMsg_getElem (msg : List Byte) (k : Nat) (hk : k < (maskMsg msg).length) :
    (maskMsg msg)[k] = msg[k]'(by rwa [← maskMsg_length]) &&& keepMask := List.getElem_map ..

theorem encodedPixel_maskMsg (msg : List Byte) (k : Nat) (p : Pixel) :
    encodedPixel (maskMsg msg) k p = encodedPixel msg k p := by
  simp only [encodedPixel, maskMsg_length]
  split
  · next hk =>
    rw [List.getD_eq_getElem _ _ (by rwa [maskMsg_length]), List.getD_eq_getElem _ _ hk, maskMsg_getElem,
      embed_and_keepMask]
  · rfl

theorem encodeFrom_maskMsg (msg : List Byte) (k : Nat) (ps : List Pixel) :
    encodeFrom (maskMsg msg) k ps = encodeFrom msg k ps := by
  induction ps generalizing k with
  | nil => rfl
  | cons p ps ih => simp only [encodeFrom, encodedPixel_maskMsg, ih]

/-- ENCODE_FN reads a message through the mask alone: its length for the capacity rule, its stored bits for EMBED. -/
theorem encodeFn_maskMsg (w h : Nat) (g : List Pixel) (msg : List Byte) :
    encodeFn w h g (maskMsg msg) = encodeFn w h g msg := by
  simp only [encodeFn, maskMsg_length, encodeFrom_maskMsg]

/-- Settles O55: both messages encode as their masked form, which is one. -/
theorem droppedBitsDoNotReachTheGrid : Obligations.DroppedBitsDoNotReachTheGrid := by
  intro w h g msg msg' hmask
  have masked : maskMsg msg = maskMsg msg' := hmask
  rw [← encodeFn_maskMsg w h g msg, masked, encodeFn_maskMsg]

end Sys2Proof.Machine
end

section
/-! PROOFS. The ENCODE command and its pixel step, one transition each (41_encoder R111, R113, R114, R118), and the frame
of all ten instructions. -/

namespace Sys2Proof.Machine

/-! ### The frame of the instructions -/

/-- ENC_START touches STATE, ERR, I and the record of launches (41_encoder R111). -/
theorem encStart_touches (s : State) :
    encStart s = { s with seq := (encStart s).seq, err := (encStart s).err, i := 0, launch := (encStart s).launch } := by
  unfold encStart
  split <;> rfl

/-- No instruction touches a space but OUT, an input of the host's, the script, a port or the trace. -/
theorem exec_touches {i : Instr} {s t : State} (h : exec i s = .next t) :
    t = { s with seq := t.seq, err := t.err, i := t.i, launch := t.launch, out := t.out, m := t.m, pr := t.pr, pg := t.pg,
                 pb := t.pb, readback := t.readback } := by
  rcases exec_cases h with ⟨_, _, _, rfl⟩ | ⟨_, _, _, rfl⟩ | ⟨_, _, rfl⟩ | ⟨_, _, _, rfl⟩ | ⟨_, _, _, rfl⟩ |
    ⟨_, _, _, rfl⟩ | ⟨_, _, _, rfl⟩ | ⟨_, _, rfl⟩ | ⟨_, _, _, _, rfl⟩
  · rw [encStart_touches]
  all_goals rfl

/-- Settles O17: the fields no instruction touches stand by `exec_touches`; which instruction touches which of the others
is read off the instructions one by one. -/
theorem instructionFrame : Obligations.InstructionFrame := by
  intro i s t h
  have ht := exec_touches h
  have hgrid : t.grid = s.grid := by rw [ht]
  have hmsg : t.msg = s.msg := by rw [ht]
  refine ⟨pixelAt_congr hgrid, msgByte_congr hmsg, hgrid, hmsg, by rw [ht], by rw [ht], by rw [ht], by rw [ht], by rw [ht],
    by rw [ht], by rw [ht], ?_⟩
  rcases exec_cases h with ⟨rfl, _, _, rfl⟩ | ⟨rfl, _, _, rfl⟩ | ⟨rfl | rfl, _, rfl⟩ | ⟨_, _, rfl, rfl⟩ | ⟨_, _, rfl, rfl⟩ |
    ⟨_, _, rfl, rfl⟩ | ⟨_, _, rfl, rfl⟩ | ⟨_, rfl, rfl⟩ | ⟨_, _, _, rfl, rfl⟩
  · rw [encStart_touches]
    simp [encode]
  · simp [encode, decStart]
  · simp [encode, usageStart]
  · simp [encode, usageStart]
  all_goals simp [encode]

/-! ### The start step -/

theorem encStart_of_admitted {s : State} (h : s.len + 1 ≤ s.w * s.h) : encStart s = setSeq .enc (beginCommand s) :=
  if_pos ((admits_iff ..).2 h)

theorem encStart_of_not_admitted {s : State} (h : s.len + 1 > s.w * s.h) :
    encStart s = raise .capacity (beginCommand s) :=
  if_neg (mt (admits_iff ..).1 (Nat.not_le.2 h))

/-- A launch of ENCODE fits when both its counts do (00_scope R6). -/
theorem encodeFits_of_counts {s : State} (hg : indexFits s.cfg (s.w * s.h) = true) (hl : indexFits s.cfg s.len = true) :
    encodeFits s = true :=
  Bool.and_eq_true_iff.2 ⟨hg, hl⟩

theorem exec_cmdEncode_of_fits {s : State} (hb : busy s = false) (hf : encodeFits s = true) :
    exec .cmdEncode s = .next (encStart s) := by
  simp [exec, execEncode, hb, hf]

theorem not_busy_of_exec_cmdEncode {s t : State} (h : exec .cmdEncode s = .next t) : busy s = false := by
  cases hb : busy s with
  | false => rfl
  | true => simp [exec, execEncode, hb] at h

/-- Settles O8: a block that is not busy takes ENC_START, which goes by the capacity rule; a busy one refuses the word. -/
theorem encodeStart : Obligations.EncodeStart := by
  refine ⟨rfl, fun s hs hg hl => ?_, fun s t h => (not_busy_iff s).1 (not_busy_of_exec_cmdEncode h)⟩
  refine ⟨encStart s, exec_cmdEncode_of_fits ((not_busy_iff s).2 hs) (encodeFits_of_counts hg hl), ?_⟩
  split
  · next hcap =>
    rw [encStart_of_not_admitted hcap]
    rfl
  · next hcap =>
    rw [encStart_of_admitted (Nat.not_lt.1 hcap)]
    rfl

/-- Settles O42: the ENCODE line is taken off the script and ENC_START raises CapacityError. -/
theorem encodeCapacityFailure : Obligations.EncodeCapacityFailure := by
  intro s rest hs hg hl hcap hnext
  refine ⟨_, step_cmdEncode hnext ((not_busy_iff s).2 hs) (encodeFits_of_counts hg hl), ?_⟩
  rw [encStart_of_not_admitted (s := { s with pending := rest }) hcap]
  rfl

/-! ### The pixel step -/

/-- In ENC, with the scan index in the grid and a script that waits, the step is ENC_PIX. -/
theorem step_of_enc {s : State} (e : s.seq = .enc) (hi : s.i < s.w * s.h) (hw : ScriptWaits s) :
    step s = .next (encNext s) := by
  rw [step_of_scriptWaits ((busy_iff s).2 (.inl e)) hw, coreStep_of_enc e, encPix_of_lt hi]

/-- Settles O23: the step leaves `encNext s`, whose fields are R114's, and `pixelAt_encNext` tells the one pixel stored to
from the others. -/
theorem encodePixelStep : Obligations.EncodePixelStep := by
  intro s e hle hlt hw
  refine ⟨encNext s, step_of_enc e (Nat.lt_of_le_of_lt hle hlt) hw, ?_, ?_, fun x' y' hne => ?_⟩
  · by_cases h : s.i < s.len <;>
      simp [encNext, encByte, encAccesses, visited, scanX, scanY, sentinel, e, h]
  · exact (pixelAt_encNext s _ _).trans (if_pos rfl)
  · exact (pixelAt_encNext s x' y').trans (if_neg hne)

end Sys2Proof.Machine
end

section
/-! PROOFS. A whole ENCODE, from its line in the script to HALT (41_encoder R112, R117, R119): ENC_START, then the pixel
steps that `EncProgress` counts. -/

namespace Sys2Proof.Machine

/-! ### The run -/

/-- An ENCODE that will be admitted stands next in the script of a block that is not busy, and the line after it waits. -/
structure EncodeDue (s : State) (rest : List HostMove) : Prop where
  notBusy : busy s = false
  fits : encodeFits s = true
  admitted : s.len + 1 ≤ s.w * s.h
  next : NextLines s (.word { port := .cmd, bits := 0b01#8 } :: rest)
  waits : ∀ mv ∈ rest.head?, waitsForDone s.cfg mv = true

/-- The state in which the pixel steps of an admitted ENCODE begin. -/
def encodeBegun (s : State) (rest : List HostMove) : State := setSeq .enc (beginCommand { s with pending := rest })

/-- After its start step an ENCODE makes its pixel steps, up to LEN + 1 of them. -/
theorem EncodeDue.run_eq {s : State} {rest : List HostMove} (d : EncodeDue s rest) {k : Nat} (hk : k ≤ s.len + 1) :
    ∃ u, run (k + 1) s = .next u ∧ EncProgress (encodeBegun s rest) u k := by
  have start : step s = .next (encodeBegun s rest) := by
    rw [step_cmdEncode d.next d.notBusy d.fits, encStart_of_admitted (s := { s with pending := rest }) d.admitted]
    rfl
  rw [run_succ_of_next start]
  exact encode_progress (s := encodeBegun s rest) rfl rfl d.admitted ⟨d.next.1, d.waits⟩ k hk

/-! ### The grid as ENCODE_FN gives it -/

@[simp] theorem gridList_length (s : State) : (gridList s).length = s.w * s.h := by
  simp [gridList, pixelCount_eq]

@[simp] theorem gridList_getElem (s : State) (k : Nat) (hk : k < (gridList s).length) :
    (gridList s)[k] = pixelOfIndex s k := by
  simp [gridList]

@[simp] theorem msgList_length (s : State) : (msgList s).length = s.len := by
  simp [msgList]

theorem msgList_getD {s : State} {k : Nat} (hk : k < s.len) (d : Byte) : (msgList s).getD k d = msgByte s k := by
  simp [msgList, hk]

/-- ENCODE_FN on the message in MSG embeds at the indices up to LEN the byte the pixel steps embed there. -/
theorem encodedPixel_msgList (s : State) (k : Nat) (p : Pixel) :
    encodedPixel (msgList s) k p = if k < s.len + 1 then embed (byteAt s k) p else p := by
  rw [encodedPixel, msgList_length, byteAt]
  rcases Nat.lt_trichotomy k s.len with h | rfl | h
  · rw [if_pos h, if_pos h, if_pos (by omega), msgList_getD h]
  · simp
  · rw [if_neg (by omega), if_neg (by omega), if_neg (by omega)]

/-- LEN + 1 pixel steps leave the grid of ENCODE_FN. -/
theorem EncProgress.gridList_eq {s u : State} (p : EncProgress s u (s.len + 1)) :
    gridList u = encodeFrom (msgList s) 0 (gridList s) := by
  refine List.ext_getElem (by simp [p.w, p.h]) fun k _ _ => ?_
  rw [encodeFrom_getElem, gridList_getElem, gridList_getElem, p.pixel, Nat.zero_add, encodedPixel_msgList]

theorem encodeFn_of_admitted {s : State} (h : s.len + 1 ≤ s.w * s.h) :
    encodeFn s.w s.h (gridList s) (msgList s) = (encodeFrom (msgList s) 0 (gridList s), .none) := by
  rw [encodeFn, msgList_length, if_pos ((admits_iff ..).2 h)]

/-- Settles O43: every transition but the last leaves ENC, and the last leaves what LEN + 1 pixel steps have done. -/
theorem encodeRunIsEncodeFn : Obligations.EncodeRunIsEncodeFn := by
  intro s rest hs hg hl ha hnext hwaits
  have d : EncodeDue s rest := ⟨(not_busy_iff s).2 hs, encodeFits_of_counts hg hl, ha, hnext, hwaits⟩
  refine ⟨fun k hk hk' => ?_, ?_⟩
  · obtain ⟨j, rfl⟩ := Nat.exists_eq_add_one.2 hk
    obtain ⟨u, hu, p⟩ := d.run_eq (k := j) (by omega)
    have hj : j ≠ s.len + 1 := by omega
    exact ⟨u, hu, (busy_iff u).2 (.inl (p.seq.trans (if_neg hj)))⟩
  · obtain ⟨t, ht, p⟩ := d.run_eq (Nat.le_refl _)
    have hgrid : gridList t = encodeFrom (msgList s) 0 (gridList s) := p.gridList_eq
    exact ⟨t, ht, p.seq.trans (if_pos rfl), p.err, p.i, by rw [encodeFn_of_admitted ha, hgrid], p.msg, p.out, p.w, p.h, p.len,
      p.pending⟩

/-! ### The grid pixel by pixel -/

/-- Settles O44: the pixels LEN + 1 steps leave (`EncProgress.pixel`), and what EXTRACT reads from an embedded one. -/
theorem encodePostconditions : Obligations.EncodePostconditions := by
  intro s rest hs hg hl ha hnext hwaits
  have d : EncodeDue s rest := ⟨(not_busy_iff s).2 hs, encodeFits_of_counts hg hl, ha, hnext, hwaits⟩
  obtain ⟨t, ht, p⟩ := d.run_eq (Nat.le_refl _)
  have pixel : ∀ k, pixelOfIndex t k = if k < s.len + 1 then embed (byteAt s k) (pixelOfIndex s k) else pixelOfIndex s k :=
    p.pixel
  have payload : ∀ k, k < s.len → pixelOfIndex t k = embed (msgByte s k) (pixelOfIndex s k) := fun k hk => by
    rw [pixel, if_pos (by omega), byteAt, if_pos hk]
  have terminator : pixelOfIndex t s.len = embed sentinel (pixelOfIndex s s.len) := by
    rw [pixel, if_pos (by omega), byteAt, if_neg (by omega)]
  refine ⟨t, ht, fun k hk => ⟨payload k hk, ?_⟩, terminator, ?_, fun k hk _ => ?_⟩
  · rw [payload k hk]
    exact extract_embed ..
  · rw [terminator, extract_embed]
    rfl
  · rw [pixel, if_neg (by omega)]

end Sys2Proof.Machine
end

section
/-! PROOFS. The DECODE command and its pixel step, one transition each (42_decoder R141, R143). -/

namespace Sys2Proof.Machine

/-! ### The start step -/

/-- A launch of DECODE fits when its pixel count does (70_reset R204). -/
theorem decodeFits_of_count {s : State} (hg : indexFits s.cfg (s.w * s.h) = true) : decodeFits s = true := hg

theorem exec_cmdDecode_of_fits {s : State} (hb : busy s = false) (hf : decodeFits s = true) :
    exec .cmdDecode s = .next (decStart s) := by
  simp [exec, execDecode, hb, hf]

theorem not_busy_of_exec_cmdDecode {s t : State} (h : exec .cmdDecode s = .next t) : busy s = false := by
  cases hb : busy s with
  | false => rfl
  | true => simp [exec, execDecode, hb] at h

/-- Settles O9: a block that is not busy takes DEC_START, which checks nothing; a busy one refuses the word. -/
theorem decodeStart : Obligations.DecodeStart := by
  refine ⟨rfl, fun s hs hg => ?_, fun s t h => (not_busy_iff s).1 (not_busy_of_exec_cmdDecode h)⟩
  exact ⟨decStart s, exec_cmdDecode_of_fits ((not_busy_iff s).2 hs) (decodeFits_of_count hg), rfl⟩

/-! ### The pixel step -/

/-- In DEC, with a script that waits, the step is DEC_PIX. -/
theorem step_of_dec {s : State} (e : s.seq = .dec) (hw : ScriptWaits s) : step s = decPix s := by
  rw [step_of_scriptWaits ((busy_iff s).2 (.inr e)) hw, coreStep_of_dec e]

/-- DEC_PIX at the sentinel halts and appends nothing (42_decoder R144). -/
theorem decNext_of_sentinel {s : State} (hx : extract (visited s) = sentinel) :
    decNext s = { s with
      m := extract (visited s), pr := (visited s).r, pg := (visited s).g, pb := (visited s).b
      seq := .halt
      i := s.i + 1
      trace := s.trace ++ [.gridRead (scanX s.w s.i) (scanY s.w s.i) (visited s)] } := by
  simp [decNext, hx]

/-- DEC_PIX at any other byte appends it and goes on (42_decoder R143). -/
theorem decNext_of_ne_sentinel {s : State} (hx : extract (visited s) ≠ sentinel) :
    decNext s = { s with
      m := extract (visited s), pr := (visited s).r, pg := (visited s).g, pb := (visited s).b
      out := s.out ++ [extract (visited s)]
      i := s.i + 1
      trace := s.trace ++ [.gridRead (scanX s.w s.i) (scanY s.w s.i) (visited s), .outAppend (extract (visited s))] } := by
  simp [decNext, hx]

/-- Settles O24: past the last pixel the step raises; at a pixel it leaves `decNext s`, by what EXTRACT reads there. -/
theorem decodePixelStep : Obligations.DecodePixelStep := by
  intro s e hle hw x y p byte
  rw [step_of_dec e hw]
  rcases hle.eq_or_lt with hend | hlt
  · rw [decPix_of_eq hend, if_pos hend]
    rfl
  · rw [decPix_of_lt hlt, if_neg hlt.ne]
    by_cases hx : extract (visited s) = sentinel
    · rw [decNext_of_sentinel hx]
      exact congrArg Host.Outcome.next (if_pos hx).symm
    · rw [decNext_of_ne_sentinel hx]
      exact congrArg Host.Outcome.next (if_neg hx).symm

end Sys2Proof.Machine
end

section
/-! PROOFS. DECODE_FN, by itself and after ENCODE_FN (42_decoder R142, R144, R147). A grid is decoded through the bytes
EXTRACT reads from it, so an encoded grid is known by those: the masked message, the sentinel, and what stood behind. -/

namespace Sys2Proof.Machine

/-! ### The first sentinel -/

/-- What stands from the first sentinel on is not taken. -/
theorem takeWhile_append_sentinel (bs es : List Byte) :
    (bs ++ sentinel :: es).takeWhile (fun e => e != sentinel) = bs.takeWhile (fun e => e != sentinel) := by
  induction bs with
  | nil => simp
  | cons b bs ih => rw [List.cons_append, List.takeWhile_cons, List.takeWhile_cons, ih]

/-- DECODE_FN of a grid with a sentinel reads the bytes before it alone (42_decoder R144). -/
theorem decodeFn_of_map_extract {g : List Pixel} {bs es : List Byte} (h : g.map extract = bs ++ sentinel :: es) :
    decodeFn g = (.none, bs.takeWhile (fun e => e != sentinel)) := by
  rw [decodeFn_of_mem (by simp [h]), h, takeWhile_append_sentinel]

/-- Settles O59: both grids carry the same bytes before the sentinel, and DECODE_FN reads no others. -/
theorem pixelsAfterSentinelIgnored : Obligations.PixelsAfterSentinelIgnored := by
  intro before p after after' hp
  have bytes : ∀ rest, (before ++ p :: rest).map extract = before.map extract ++ sentinel :: rest.map extract := fun rest => by
    rw [List.map_append, List.map_cons, hp]
    rfl
  rw [decodeFn_of_map_extract (bytes after), decodeFn_of_map_extract (bytes after')]

/-! ### The bytes of an encoded grid -/

/-- A byte put before a message moves its other bytes, and its terminator, one pixel on. -/
theorem encodedPixel_cons_succ (m : Byte) (msg : List Byte) (k : Nat) (p : Pixel) :
    encodedPixel (m :: msg) (k + 1) p = encodedPixel msg k p := by
  simp [encodedPixel]

theorem encodeFrom_cons_succ (m : Byte) (msg : List Byte) (k : Nat) (ps : List Pixel) :
    encodeFrom (m :: msg) (k + 1) ps = encodeFrom msg k ps := by
  induction ps generalizing k with
  | nil => rfl
  | cons p ps ih => rw [encodeFrom, encodeFrom, encodedPixel_cons_succ, ih]

/-- Behind the terminator ENCODE_FN leaves every pixel (41_encoder R117). -/
theorem encodeFrom_nil_succ (k : Nat) (ps : List Pixel) : encodeFrom [] (k + 1) ps = ps := by
  induction ps generalizing k with
  | nil => rfl
  | cons p ps ih => simp [encodeFrom, encodedPixel, ih]

/-- An admitted message is read back from the encoded grid masked, then the sentinel, then what stood there before. -/
theorem map_extract_encodeFrom {msg : List Byte} {g : List Pixel} (h : msg.length < g.length) :
    (encodeFrom msg 0 g).map extract = maskMsg msg ++ sentinel :: (g.drop (msg.length + 1)).map extract := by
  induction msg generalizing g with
  | nil =>
    obtain ⟨p, ps, rfl⟩ := List.exists_cons_of_length_pos h
    have terminator : extract (encodedPixel [] 0 p) = sentinel := extract_embed sentinel p
    simp [encodeFrom, encodeFrom_nil_succ, maskMsg, terminator]
  | cons m msg ih =>
    obtain ⟨p, ps, rfl⟩ := List.exists_cons_of_length_pos (Nat.zero_lt_of_lt h)
    have payload : extract (encodedPixel (m :: msg) 0 p) = m &&& keepMask := extract_embed m p
    rw [encodeFrom, encodeFrom_cons_succ, List.map_cons, payload, ih (by simpa using h)]
    rfl

/-! ### The round trip -/

/-- DECODE_FN after an admitted ENCODE_FN gives the masked message up to its first zero (42_decoder R147). -/
theorem decodeFn_encodeFrom {msg : List Byte} {g : List Pixel} (h : msg.length < g.length) :
    decodeFn (encodeFrom msg 0 g) = (.none, (maskMsg msg).takeWhile (fun m => m != sentinel)) :=
  decodeFn_of_map_extract (map_extract_encodeFrom h)

/-- Settles O49: an admitted ENCODE_FN is `encodeFrom`, whose bytes are the masked message and the sentinel. -/
theorem roundTripOfFunctions : Obligations.RoundTripOfFunctions := by
  intro w h g msg hlen ha
  rw [encodeFn, if_pos ((admits_iff ..).2 ha)]
  exact decodeFn_encodeFrom (by omega)

/-- A message comes back whole when masking keeps each of its bytes and none is zero. -/
theorem takeWhile_maskMsg_eq_self_iff (msg : List Byte) :
    (maskMsg msg).takeWhile (fun m => m != sentinel) = msg ↔ ∀ m ∈ msg, m &&& keepMask = m ∧ m ≠ sentinel := by
  induction msg with
  | nil => simp [maskMsg]
  | cons m msg ih =>
    rw [List.forall_mem_cons, ← ih, maskMsg, List.map_cons, List.takeWhile_cons, ← maskMsg]
    by_cases hm : m &&& keepMask = sentinel
    · exact iff_of_false (by simp [hm]) fun ⟨⟨hk, hne⟩, _⟩ => hne (hk ▸ hm)
    · simp only [bne_iff_ne, ne_eq, hm, not_false_eq_true, if_true, List.cons.injEq]
      exact and_congr_left fun _ => ⟨fun hk => ⟨hk, hk ▸ hm⟩, And.left⟩

/-- The bytes that survive the mask and are not zero are the seven that EXTRACT gives beside the sentinel
(30_encoding R72, 40_bit_layout R93). -/
theorem storedByte_iff (m : Byte) :
    (m &&& keepMask = m ∧ m ≠ sentinel) ↔ m ∈ [0x20#8, 0x40#8, 0x60#8, 0x80#8, 0xA0#8, 0xC0#8, 0xE0#8] := by
  refine ⟨fun ⟨hk, hne⟩ => ?_, fun h => ?_⟩
  · have hx : extract (embed m blankPixel) = m := by rw [extract_embed, hk]
    rw [← hx] at hne ⊢
    exact extract_mem_of_ne_sentinel hne
  · have seven : ∀ b ∈ [0x20#8, 0x40#8, 0x60#8, 0x80#8, 0xA0#8, 0xC0#8, 0xE0#8], b &&& keepMask = b ∧ b ≠ sentinel := by
      decide
    exact seven m h

/-- Settles O50: by the round trip, the masked message up to its first zero is to be the message, so byte by byte. -/
theorem roundTripExactIff : Obligations.RoundTripExactIff := by
  intro w h g msg hlen ha
  rw [roundTripOfFunctions w h g msg hlen ha, Prod.mk.injEq]
  refine (and_iff_right rfl).trans ((takeWhile_maskMsg_eq_self_iff msg).trans ?_)
  simp only [storedByte_iff]

/-- Refutes O51: on the grid of vector V1 the message `[0x41]` comes back as `[0x40]`, so not as it was. -/
theorem not_sourceRoundTripClaim : ¬ Obligations.SourceRoundTripClaim := by
  intro claim
  have decoded : decodeFn (encodeFn 2 1 [⟨200#8, 200#8, 200#8⟩, ⟨10#8, 10#8, 10#8⟩] [0x41#8]).1 = (.none, [0x40#8]) := by
    decide
  have claimed := claim 2 1 [⟨200#8, 200#8, 200#8⟩, ⟨10#8, 10#8, 10#8⟩] [0x41#8] (by decide) (by decide) (by decide)
  rw [decoded] at claimed
  exact absurd claimed (by decide)

end Sys2Proof.Machine
end

section
/-! PROOFS. A whole DECODE, from its line in the script to HALT (42_decoder R142, R146, R149), and the program ENCODE,
DECODE (R147): DEC_START, then the appending pixel steps that `DecProgress` counts, then the step that ends them. -/

namespace Sys2Proof.Machine

/-! ### The run -/

/-- One step after a run. -/
theorem run_step {k : Nat} {s t u : State} (h : run k s = .next t) (hs : step t = .next u) : run (k + 1) s = .next u := by
  rw [run_add h, run_succ_of_next hs, run_zero]

/-- A DECODE within the index width stands next in the script of a block that is not busy, and the line after it waits. -/
structure DecodeDue (s : State) (rest : List HostMove) : Prop where
  notBusy : busy s = false
  fits : decodeFits s = true
  next : NextLines s (.word { port := .cmd, bits := 0b10#8 } :: rest)
  waits : ∀ mv ∈ rest.head?, waitsForDone s.cfg mv = true

/-- The state in which the pixel steps of a DECODE begin. -/
def decodeBegun (s : State) (rest : List HostMove) : State := decStart { s with pending := rest }

/-- The script of a begun DECODE waits. -/
theorem DecodeDue.scriptWaits {s : State} {rest : List HostMove} (d : DecodeDue s rest) :
    ScriptWaits (decodeBegun s rest) :=
  ⟨d.next.1, d.waits⟩

/-- After its start step a DECODE makes an appending pixel step for each pixel before a sentinel. -/
theorem DecodeDue.run_eq {s : State} {rest : List HostMove} (d : DecodeDue s rest) {k : Nat} (hk : k ≤ s.w * s.h)
    (hn : ∀ j, j < k → codeAt s j ≠ sentinel) :
    ∃ u, run (k + 1) s = .next u ∧ DecProgress (decodeBegun s rest) u k := by
  have start : step s = .next (decodeBegun s rest) := step_cmdDecode d.next d.notBusy d.fits
  rw [run_succ_of_next start]
  exact decode_progress rfl rfl d.scriptWaits k hk hn

/-- Up to the step that meets the sentinel or the end of the grid the block is busy. -/
theorem DecodeDue.busy_before {s : State} {rest : List HostMove} (d : DecodeDue s rest) {n : Nat} (hn : n ≤ s.w * s.h)
    (hne : ∀ j, j < n → codeAt s j ≠ sentinel) (k : Nat) (hk : 0 < k) (hk' : k < n + 2) :
    ∃ u, run k s = .next u ∧ busy u = true := by
  obtain ⟨j, rfl⟩ := Nat.exists_eq_add_one.2 hk
  obtain ⟨u, hu, p⟩ := d.run_eq (k := j) (by omega) fun i hi => hne i (by omega)
  exact ⟨u, hu, (busy_iff u).2 (.inr p.seq)⟩

/-- Pixel `n` of the grid is the first that carries the sentinel. -/
structure FirstSentinel (s : State) (n : Nat) : Prop where
  inGrid : n < s.w * s.h
  before : ∀ j, j < n → codeAt s j ≠ sentinel
  here : codeAt s n = sentinel

/-- With its first sentinel at `n`, a DECODE ends with the pixel step after `n` appending ones. -/
theorem DecodeDue.run_sentinel {s : State} {rest : List HostMove} (d : DecodeDue s rest) {n : Nat}
    (f : FirstSentinel s n) :
    ∃ u, DecProgress (decodeBegun s rest) u n ∧ extract (visited u) = sentinel ∧ run (n + 2) s = .next (decNext u) := by
  obtain ⟨u, hu, p⟩ := d.run_eq f.inGrid.le f.before
  have hlt : u.i < pixelCount u.w u.h := by
    rw [p.i, p.w, p.h]
    exact f.inGrid
  have hstep : step u = .next (decNext u) := by rw [p.step_eq d.scriptWaits, decPix_of_lt hlt]
  exact ⟨u, p, by rw [p.visited_eq]; exact f.here, run_step hu hstep⟩

/-- With no sentinel, a DECODE appends a byte for every pixel and then raises UnterminatedMessage. -/
theorem DecodeDue.run_exhausted {s : State} {rest : List HostMove} (d : DecodeDue s rest)
    (hne : ∀ j, j < s.w * s.h → codeAt s j ≠ sentinel) :
    ∃ u, DecProgress (decodeBegun s rest) u (s.w * s.h) ∧ run (s.w * s.h + 2) s = .next (raise .unterminated u) := by
  obtain ⟨u, hu, p⟩ := d.run_eq (Nat.le_refl _) hne
  have hend : u.i = pixelCount u.w u.h := by
    rw [p.i, p.w, p.h]
    rfl
  have hstep : step u = .next (raise .unterminated u) := by rw [p.step_eq d.scriptWaits, decPix_of_eq hend]
  exact ⟨u, p, run_step hu hstep⟩

/-! ### The bytes as DECODE_FN gives them -/

/-- The bytes of the grid in raster order, `e(i)` of 42_decoder R142. -/
theorem map_extract_gridList (s : State) : (gridList s).map extract = (List.range (s.w * s.h)).map (codeAt s) := by
  rw [gridList, List.map_map]
  rfl

/-- The first sentinel is where the search of DECODE_FN ends. -/
theorem firstSentinel_iff (s : State) (n : Nat) :
    FirstSentinel s n ↔ ((gridList s).map extract).findIdx? (fun e => e == sentinel) = some n := by
  rw [map_extract_gridList, List.findIdx?_eq_some_iff_getElem]
  simp only [List.length_map, List.length_range, List.getElem_map, List.getElem_range, beq_iff_eq]
  exact ⟨fun f => ⟨f.inGrid, f.here, f.before⟩, fun ⟨hlt, here, before⟩ => ⟨hlt, before, here⟩⟩

theorem decodeFn_of_firstSentinel {s : State} {n : Nat} (f : FirstSentinel s n) :
    decodeFn (gridList s) = (.none, (List.range n).map (codeAt s)) := by
  simp only [decodeFn, (firstSentinel_iff s n).1 f]
  rw [map_extract_gridList, ← List.map_take, List.take_range, Nat.min_eq_left f.inGrid.le]

theorem decodeFn_of_no_sentinel {s : State} (hne : ∀ j, j < s.w * s.h → codeAt s j ≠ sentinel) :
    decodeFn (gridList s) = (.unterminated, (List.range (s.w * s.h)).map (codeAt s)) := by
  rw [decodeFn_of_not_mem, map_extract_gridList]
  rw [map_extract_gridList]
  simpa using hne

/-- A grid that decodes with no error has its first sentinel behind the decoded bytes. -/
theorem firstSentinel_of_decodeFn {s : State} {out : List Byte} (h : decodeFn (gridList s) = (.none, out)) :
    FirstSentinel s out.length := by
  cases hf : ((gridList s).map extract).findIdx? (fun e => e == sentinel) with
  | none => simp [decodeFn, hf] at h
  | some n =>
    have f : FirstSentinel s n := (firstSentinel_iff s n).2 hf
    rw [decodeFn_of_firstSentinel f, Prod.mk.injEq] at h
    rw [← h.2, List.length_map, List.length_range]
    exact f

/-- Settles O46: the appending steps are counted by the pixels before the first sentinel, or by them all; the step after
them ends the run, and by then OUT holds what DECODE_FN gives. -/
theorem decodeRunIsDecodeFn : Obligations.DecodeRunIsDecodeFn := by
  intro s rest hs hg hnext hwaits
  have d : DecodeDue s rest := ⟨(not_busy_iff s).2 hs, decodeFits_of_count hg, hnext, hwaits⟩
  refine ⟨fun n hn before here => ?_, fun hne => ?_⟩
  · have f : FirstSentinel s n := ⟨hn, before, here⟩
    obtain ⟨u, p, hx, ht⟩ := d.run_sentinel f
    have herr : (decNext u).err = .none := p.err
    have hout : (decNext u).out = (List.range n).map (codeAt s) := by rw [decNext_out, if_pos hx, p.out]; rfl
    refine ⟨d.busy_before hn.le before, decNext u, ht, by rw [decNext_seq, if_pos hx], herr, by rw [decNext_i, p.i], hout, ?_,
      p.grid, p.msg, p.w, p.h, p.len, p.pending⟩
    rw [decodeFn_of_firstSentinel f, herr, hout]
  · obtain ⟨u, p, ht⟩ := d.run_exhausted hne
    have hout : u.out = (List.range (s.w * s.h)).map (codeAt s) := p.out
    refine ⟨d.busy_before (Nat.le_refl _) hne, raise .unterminated u, ht, rfl, rfl, p.i, hout, ?_,
      p.grid, p.msg, p.w, p.h, p.len, p.pending⟩
    rw [decodeFn_of_no_sentinel hne, raise_err, raise_out, hout]

/-! ### The program ENCODE, DECODE -/

/-- Settles O52: LEN + 2 transitions leave the encoded grid and the DECODE due on it; that grid decodes to the masked
message up to its first zero, so its first sentinel stands just behind that many pixels. -/
theorem roundTripOfProgram : Obligations.RoundTripOfProgram := by
  intro s hs hg hl ha hnext k
  have enc : EncodeDue s [.word { port := .cmd, bits := 0b10#8 }] :=
    ⟨(not_busy_iff s).2 hs, encodeFits_of_counts hg hl, ha, hnext, by simp [waitsForDone]⟩
  obtain ⟨v, hv, q⟩ := enc.run_eq (Nat.le_refl _)
  have dec : DecodeDue v [] := by
    refine ⟨(not_busy_iff v).2 (.inr (q.seq.trans (if_pos rfl))), decodeFits_of_count ?_,
      ⟨q.portWord.trans hnext.1, q.pending⟩, by simp⟩
    rw [q.cfg, q.w, q.h]
    exact hg
  have grid : gridList v = encodeFrom (msgList s) 0 (gridList s) := q.gridList_eq
  have decoded : decodeFn (gridList v) = (.none, k) := by
    rw [grid]
    exact decodeFn_encodeFrom (by simpa using ha)
  have f : FirstSentinel v k.length := firstSentinel_of_decodeFn decoded
  obtain ⟨u, p, hx, ht⟩ := dec.run_sentinel f
  have hout : (List.range k.length).map (codeAt v) = k := by
    rw [decodeFn_of_firstSentinel f, Prod.mk.injEq] at decoded
    exact decoded.2
  refine ⟨decNext u, ?_, by rw [decNext_seq, if_pos hx], p.err, ?_, by rw [decNext_i, p.i], p.pending⟩
  · rw [show s.len + k.length + 4 = s.len + 1 + 1 + (k.length + 2) by omega, run_add hv, ht]
  · rw [decNext_out, if_pos hx, p.out]
    exact hout

end Sys2Proof.Machine
end

section
/-! PROOFS. The two illegal command words (60_exceptions R173). -/

namespace Sys2Proof.Machine

/-- USAGE_START gives ERR, I and STATE their values and keeps every other field but the launch on record (R173). -/
theorem usageStart_eq (s : State) :
    usageStart s = { s with err := .usage, i := 0, seq := .halt, launch := (usageStart s).launch } :=
  rfl

theorem exec_cmdNeither_of_not_busy {s : State} (hb : busy s = false) : exec .cmdNeither s = .next (usageStart s) := by
  simp [exec, execIllegalNeither, hb]

theorem exec_cmdBoth_of_not_busy {s : State} (hb : busy s = false) : exec .cmdBoth s = .next (usageStart s) := by
  simp [exec, execIllegalBoth, hb]

/-- Settles O10: the words decode as the round trip of their instructions says, and a block that is not busy takes
USAGE_START on either. -/
theorem illegalCommandsRaiseUsage : Obligations.IllegalCommandsRaiseUsage := by
  refine ⟨decodeOfEncode .cmdNeither rfl, decodeOfEncode .cmdBoth rfl, rfl, fun s hs => ?_⟩
  have hb : busy s = false := (not_busy_iff s).2 hs
  exact ⟨usageStart s, exec_cmdNeither_of_not_busy hb, exec_cmdBoth_of_not_busy hb, usageStart_eq s⟩

end Sys2Proof.Machine
end

section
/-! PROOFS. The port accesses of whole operations, in order (70_reset R213, 20_memory R42, R52, R54): the runs of ENCODE and
DECODE are known by `EncProgress` and `DecProgress`, which count the accesses too. -/

namespace Sys2Proof.Machine

/-- Settles O45: LEN + 1 pixel steps make the accesses of the indices 0 to LEN, and ENC_START makes none. -/
theorem encodeAccessSequence : Obligations.EncodeAccessSequence := by
  intro s rest hs hg hl ha hnext hwaits
  have d : EncodeDue s rest := ⟨(not_busy_iff s).2 hs, encodeFits_of_counts hg hl, ha, hnext, hwaits⟩
  obtain ⟨t, ht, p⟩ := d.run_eq (Nat.le_refl _)
  exact ⟨t, ht, p.trace⟩

/-- Settles O47: each appending step reads its pixel and appends its byte; after them a sentinel is read and not appended,
and the end of the grid makes no access. -/
theorem decodeAccessSequence : Obligations.DecodeAccessSequence := by
  intro s rest hs hg hnext hwaits
  have d : DecodeDue s rest := ⟨(not_busy_iff s).2 hs, decodeFits_of_count hg, hnext, hwaits⟩
  refine ⟨fun n hn before here => ?_, fun hne => ?_⟩
  · obtain ⟨u, p, hx, ht⟩ := d.run_sentinel ⟨hn, before, here⟩
    refine ⟨decNext u, ht, ?_⟩
    rw [decNext_trace, if_pos hx, p.visited_eq, p.i, p.w, p.trace]
    rfl
  · obtain ⟨u, p, ht⟩ := d.run_exhausted hne
    exact ⟨raise .unterminated u, ht, p.trace⟩

end Sys2Proof.Machine
end

section
/-! PROOFS. What holds of a command whatever came before it (70_reset R202, R207, R209): it starts clean, a busy block refuses
it, and a message byte below 0x20 cuts the message it decodes. -/

namespace Sys2Proof.Machine

/-! ### A command in a busy block -/

/-- Settles O11: each of the four arms asks first whether the block is busy. -/
theorem commandWhileBusyRefused : Obligations.CommandWhileBusyRefused := by
  intro s hs
  have hb : busy s = true := (busy_iff s).2 hs
  exact ⟨if_pos hb, if_pos hb, if_pos hb, if_pos hb⟩

/-! ### A clean start -/

theorem eq_encStart_of_exec {s t : State} (h : exec .cmdEncode s = .next t) : t = encStart s := by
  obtain ⟨_, _, ht⟩ : busy s = false ∧ encodeFits s = true ∧ t = encStart s := by simpa using exec_cases h
  exact ht

theorem eq_decStart_of_exec {s t : State} (h : exec .cmdDecode s = .next t) : t = decStart s := by
  obtain ⟨_, _, ht⟩ : busy s = false ∧ decodeFits s = true ∧ t = decStart s := by simpa using exec_cases h
  exact ht

theorem eq_usageStart_of_exec {i : Instr} (hi : i = .cmdNeither ∨ i = .cmdBoth) {s t : State} (h : exec i s = .next t) :
    t = usageStart s := by
  obtain ⟨_, ht⟩ : busy s = false ∧ t = usageStart s := by
    rcases hi with rfl | rfl <;> simpa using exec_cases h
  exact ht

/-- ENC_START goes by the three counts alone (41_encoder R111). -/
theorem encStart_clean {s s' : State} (hw : s.w = s'.w) (hh : s.h = s'.h) (hlen : s.len = s'.len) :
    (encStart s).seq = (encStart s').seq ∧ (encStart s).err = (encStart s').err := by
  by_cases ha : s.len + 1 ≤ s.w * s.h
  · rw [encStart_of_admitted ha, encStart_of_admitted (by rwa [← hw, ← hh, ← hlen])]
    exact ⟨rfl, rfl⟩
  · have hcap := Nat.not_le.1 ha
    rw [encStart_of_not_admitted hcap, encStart_of_not_admitted (by rwa [← hw, ← hh, ← hlen])]
    exact ⟨rfl, rfl⟩

/-- Settles O56: every start step sets I to 0 and leaves GRID, DEC_START clears OUT, and what it puts in STATE and ERR is
fixed, but for ENCODE's capacity check. -/
theorem commandsStartClean : Obligations.CommandsStartClean := by
  intro s s' t t' i hport hw hh hgrid _ hin h h'
  cases i with
  | cmdEncode =>
    obtain ⟨hseq, herr⟩ := encStart_clean hw hh (hin rfl).1
    rw [eq_encStart_of_exec h, eq_encStart_of_exec h']
    refine ⟨hseq, herr, (started_encStart s).i.trans (started_encStart s').i.symm, ?_, by simp⟩
    rw [encStart_touches s, encStart_touches s']
    exact hgrid
  | cmdDecode =>
    rw [eq_decStart_of_exec h, eq_decStart_of_exec h']
    exact ⟨rfl, rfl, rfl, hgrid, fun _ => rfl⟩
  | cmdNeither =>
    rw [eq_usageStart_of_exec (.inl rfl) h, eq_usageStart_of_exec (.inl rfl) h']
    exact ⟨rfl, rfl, rfl, hgrid, by simp⟩
  | cmdBoth =>
    rw [eq_usageStart_of_exec (.inr rfl) h, eq_usageStart_of_exec (.inr rfl) h']
    exact ⟨rfl, rfl, rfl, hgrid, by simp⟩
  | dataPayloadByte _ _ | dataChannelR _ _ | dataChannelG _ _ | dataChannelB _ _ | dataReconstructed _
  | statusWord _ _ _ => cases hport

/-! ### A terminator inside the message -/

/-- Bytes of at least 0x20 keep a stored bit, so none of them is taken for the sentinel. -/
theorem takeWhile_maskMsg_of_ge {msg : List Byte} (h : ∀ b ∈ msg, 0x20 ≤ b.toNat) :
    (maskMsg msg).takeWhile (fun m => m != sentinel) = maskMsg msg := by
  refine List.takeWhile_eq_self_iff.2 fun c hc => ?_
  obtain ⟨b, hb, rfl⟩ := List.mem_map.1 hc
  have hne : b &&& keepMask ≠ sentinel := mt (and_keepMask_eq_zero_iff b).1 (Nat.not_le.2 (h b hb))
  simpa using hne

/-- Settles O53: the byte below 0x20 masks to the sentinel, where the decode stops; none before it does. -/
theorem inBandTerminatorCutsMessage : Obligations.InBandTerminatorCutsMessage := by
  intro w h g before m after hlen ha hbefore hm
  have hcut : m &&& keepMask = sentinel := (and_keepMask_eq_zero_iff m).2 (Nat.le_of_lt_succ hm)
  have hmask : maskMsg (before ++ m :: after) = maskMsg before ++ sentinel :: maskMsg after := by
    rw [maskMsg, List.map_append, List.map_cons, hcut]
    rfl
  calc decodeFn (encodeFn w h g (before ++ m :: after)).1
      = (.none, (maskMsg (before ++ m :: after)).takeWhile (fun m => m != sentinel)) :=
        roundTripOfFunctions w h g _ hlen ha
    _ = (.none, maskMsg before) := by rw [hmask, takeWhile_append_sentinel, takeWhile_maskMsg_of_ge hbefore]

end Sys2Proof.Machine
end

section
/-! PROOFS. How a busy block comes to rest: by itself, within W*H + 1 transitions (70_reset R215), or by a reset at any
transition (70_reset R200, R201). -/

namespace Sys2Proof.Machine

/-! ### By itself -/

/-- From `s` to `t` an operation goes on: it has passed one pixel, of the same grid. -/
structure PassedPixel (s t : State) : Prop where
  inGrid : s.i < s.w * s.h
  inv : Inv t
  busy : busy t = true
  waits : ScriptWaits t
  w : t.w = s.w
  h : t.h = s.h
  i : t.i = s.i + 1

/-- ENC_PIX passes a pixel or halts. -/
theorem Inv.encPix_passes {s : State} (h : Inv s) (e : s.seq = .enc) (hw : ScriptWaits s) :
    ∃ t, step s = .next t ∧ (t.seq = .halt ∨ PassedPixel s t) := by
  obtain ⟨_, hcap, hle⟩ := h.enc e
  have hi : s.i < s.w * s.h := by omega
  refine ⟨Machine.encNext s, step_of_enc e hi hw, ?_⟩
  by_cases hlast : s.i = s.len
  · exact .inl (if_pos hlast)
  · have hbusy : busy (Machine.encNext s) = true := (busy_iff _).2 (.inl ((if_neg hlast).trans e))
    exact .inr ⟨hi, h.encNext e hi, hbusy, hw, rfl, rfl, rfl⟩

/-- DEC_PIX passes a pixel or halts. -/
theorem Inv.decPix_passes {s : State} (h : Inv s) (e : s.seq = .dec) (hw : ScriptWaits s) :
    ∃ t, step s = .next t ∧ (t.seq = .halt ∨ PassedPixel s t) := by
  obtain ⟨_, _, hle⟩ := h.dec e
  rw [step_of_dec e hw]
  rcases hle.eq_or_lt with hend | hi
  · exact ⟨_, decPix_of_eq hend, .inl rfl⟩
  · refine ⟨Machine.decNext s, decPix_of_lt hi, ?_⟩
    by_cases hx : extract (visited s) = sentinel
    · exact .inl (if_pos hx)
    · have hbusy : busy (Machine.decNext s) = true := (busy_iff _).2 (.inr ((if_neg hx).trans e))
      exact .inr ⟨hi, h.decNext e hi, hbusy, hw, rfl, rfl, rfl⟩

/-- The pixel step of a busy block passes a pixel or halts. -/
theorem Inv.step_passes {s : State} (h : Inv s) (hb : busy s = true) (hw : ScriptWaits s) :
    ∃ t, step s = .next t ∧ (t.seq = .halt ∨ PassedPixel s t) := by
  rcases (busy_iff s).1 hb with e | e
  · exact h.encPix_passes e hw
  · exact h.decPix_passes e hw

/-- With at most `n` pixels left, a busy block halts within `n + 1` transitions. -/
theorem Inv.halts_within {s : State} (h : Inv s) (hb : busy s = true) (hw : ScriptWaits s) (n : Nat)
    (hn : s.w * s.h ≤ s.i + n) : ∃ k t, k ≤ n + 1 ∧ run k s = .next t ∧ t.seq = .halt := by
  induction n generalizing s with
  | zero =>
    obtain ⟨t, ht, hhalt | p⟩ := h.step_passes hb hw
    · exact ⟨1, t, Nat.le_refl _, run_succ_of_next ht, hhalt⟩
    · exact absurd p.inGrid (Nat.not_lt.2 hn)
  | succ n ih =>
    obtain ⟨t, ht, hhalt | p⟩ := h.step_passes hb hw
    · exact ⟨1, t, by omega, run_succ_of_next ht, hhalt⟩
    · have left : t.w * t.h ≤ t.i + n := by
        rw [p.w, p.h, p.i]
        omega
      obtain ⟨k, v, hk, hv, hhalt⟩ := ih p.inv p.busy p.waits left
      exact ⟨k + 1, v, by omega, (run_succ_of_next ht).trans hv, hhalt⟩

/-- Settles O48: at most W*H pixels are left, and the transition after the last of them halts. -/
theorem busyBlockHalts : Obligations.BusyBlockHalts :=
  fun s h hb hw => h.halts_within hb hw (s.w * s.h) (Nat.le_add_left ..)

/-! ### By a reset -/

/-- A reset waits for nothing (70_reset R200). -/
theorem step_reset {s : State} {rest : List HostMove} (hl : NextLines s (.reset :: rest)) :
    step s = .next (resetBlock { s with pending := rest }) :=
  step_of_move hl (Bool.and_false _)

/-- Settles O36: the step is `resetBlock`, whatever the block was doing. -/
theorem resetAtAnyTime : Obligations.ResetAtAnyTime :=
  fun s rest hl => ⟨resetBlock { s with pending := rest }, step_reset hl, rfl⟩

/-- The core's transition does not look at the script. -/
theorem coreStep_withPending {s t : State} (h : coreStep s = .next t) (rest : List HostMove) :
    coreStep { s with pending := rest } = .next { t with pending := rest } := by
  rcases coreStep_cases h with ⟨hb, rfl⟩ | ⟨e, hi, rfl⟩ | ⟨e, hi, rfl⟩ | ⟨e, hi, rfl⟩
  · rcases (not_busy_iff t).1 hb with e | e
    · exact coreStep_of_idle e
    · exact coreStep_of_halt e
  · rw [coreStep_of_enc (s := { s with pending := rest }) e, encPix_of_lt (s := { s with pending := rest }) hi]
    rfl
  · rw [coreStep_of_dec (s := { s with pending := rest }) e, decPix_of_eq (s := { s with pending := rest }) hi]
    rfl
  · rw [coreStep_of_dec (s := { s with pending := rest }) e, decPix_of_lt (s := { s with pending := rest }) hi]
    rfl

/-- A pass is the core's transition, in a busy block and in any other (log 5). -/
theorem step_pass {s t : State} (hp : s.portWord = none) (h : coreStep s = .next t) (rest : List HostMove) :
    step { s with pending := .pass :: rest } = .next { t with pending := rest } :=
  (step_of_move (s := { s with pending := .pass :: rest }) ⟨hp, rfl⟩ (Bool.and_false _)).trans (coreStep_withPending h rest)

/-- A block that is let pass `k` transitions makes those it would make with no line in the script (log 5). -/
theorem run_passes {k : Nat} {s t : State} (hl : NextLines s []) (h : run k s = .next t) (rest : List HostMove) :
    run k { s with pending := List.replicate k .pass ++ rest } = .next { t with pending := rest } := by
  induction k generalizing s with
  | zero =>
    cases h
    rfl
  | succ k ih =>
    cases hc : coreStep s with
    | next u =>
      have hs : step s = .next u := (step_of_nil hl).trans hc
      have hu : NextLines u [] := ⟨(coreStep_queue hc).2.trans hl.1, (coreStep_queue hc).1.trans hl.2⟩
      have hpass : step { s with pending := .pass :: (List.replicate k .pass ++ rest) } =
          .next { u with pending := List.replicate k .pass ++ rest } :=
        step_pass hl.1 hc _
      rw [run_succ_of_next hs] at h
      exact (run_succ_of_next hpass).trans (ih hu h)
    | fault r => simp [run, step_of_nil hl, hc] at h
    | refused r => simp [run, step_of_nil hl, hc] at h

/-- The start step of an admitted ENCODE, whatever the lines behind it. -/
theorem step_encodeBegun {s : State} {rest : List HostMove} (hb : busy s = false) (hf : encodeFits s = true)
    (ha : s.len + 1 ≤ s.w * s.h) (hl : NextLines s (.word { port := .cmd, bits := 0b01#8 } :: rest)) :
    step s = .next (encodeBegun s rest) := by
  rw [step_cmdEncode hl hb hf, encStart_of_admitted (s := { s with pending := rest }) ha]
  rfl

/-- Settles O57: the `k` transitions let pass are `k` pixel steps, which `EncProgress` tells pixel by pixel, and the reset
leaves the grid as they left it. -/
theorem resetInterruptsEncode : Obligations.ResetInterruptsEncode := by
  intro s k hs hg hl ha hk hnext
  have start := step_encodeBegun ((not_busy_iff s).2 hs) (encodeFits_of_counts hg hl) ha hnext
  obtain ⟨u, hu, p⟩ := encode_progress (s := encodeBegun s []) rfl rfl ha ⟨hnext.1, by simp [encodeBegun]⟩ k
    (Nat.le_succ_of_le hk)
  have passed : run (k + 1) s = .next { u with pending := [.reset] } :=
    (run_succ_of_next start).trans (run_passes (s := encodeBegun s []) ⟨hnext.1, rfl⟩ hu [.reset])
  have reset : step { u with pending := [.reset] } = .next (resetBlock { u with pending := [] }) :=
    step_reset ⟨p.portWord.trans hnext.1, rfl⟩
  refine ⟨_, run_step passed reset, rfl, rfl, rfl, rfl, rfl, p.msg, p.w, p.h, p.len, fun j _ => ?_⟩
  have pixel : pixelOfIndex u j = if j < k then embed (byteAt s j) (pixelOfIndex s j) else pixelOfIndex s j := p.pixel j
  rw [show pixelOfIndex (resetBlock { u with pending := [] }) j = pixelOfIndex u j from rfl, pixel]
  split
  · next hj => rw [byteAt, if_pos (by omega)]
  · rfl

end Sys2Proof.Machine
end
